-- ==== Sys2Proof/Word.lean ====
section
/-! DEFINITION. The word types of the YOTP core: bytes, 32-bit register words, 64-bit registers and
byte buffers of a fixed size (spec/00_scope.md R7, spec/10_state.md R10). -/

namespace Sys2Proof

/-- A byte, "an unsigned integer 0 to 255" (R7). -/
abbrev Byte := BitVec 8

/-- A 32-bit word: a command word, a register word, a SHA-1 word. -/
abbrev Word := BitVec 32

/-- The contents of a 64-bit register (`CTR`, `TIME`, `EPOCH`, `STEP`). -/
abbrev DWord := BitVec 64

/-- A byte buffer of `n` bytes, index 0 first (R7). -/
abbrev Buf (n : Nat) := Vector Byte n

end Sys2Proof
end

