-- ==== Sys2Proof/Config.lean ====
section
/-! DEFINITION. The implementation parameters of spec/00_scope.md R6. The spec fixes every one of
them and leaves no value free, so there is no opaque constant here. -/

namespace Sys2Proof.Config

/-- `TEXT_MAX`, the capacity of the text buffer in characters (R6, D5). DESIGN CHOICE, safe for
this core: fixed (notes/assumptions/5). -/
@[simp] abbrev textMax : Nat := 256

/-- `KEY_MAX`, the capacity of the key buffer in bytes (R6, D5). DESIGN CHOICE, safe for this core:
fixed (notes/assumptions/5). -/
@[simp] abbrev keyMax : Nat := 160

/-- The size of the code buffer in bytes (R6, R25). -/
@[simp] abbrev codeMax : Nat := 12

/-- The size of the register space in bytes (R6, R40). -/
@[simp] abbrev windowBytes : Nat := 4096

/-- The default digit count, loaded by reset (R13, R28). -/
def defaultDigits : Word := 6

/-- The default epoch, loaded by reset (R17, R28). -/
def defaultEpoch : DWord := 0

/-- The default time step in seconds, loaded by reset (R18, R28). -/
def defaultStep : DWord := 30

end Sys2Proof.Config
end

