-- ==== Sys2Proof/Syntax.lean ====
section
/-! DEFINITION. The commands of the YOTP core, one constructor per row of spec/opcode_table.json
(spec/30_encoding.md R63). A command is the core's instruction (spec/00_scope.md R9). -/

namespace Sys2Proof

/-- The twelve commands (R63). Only `CTRDEC` carries an operand in its word; every other operand is
a whole register or buffer named by the command's own rule (R65). -/
inductive Instr where
  /-- `NOP` (R154). -/
  | nop
  /-- `DECB32` (R83). -/
  | decb32
  /-- `DECHEX` (R86). -/
  | dechex
  /-- `CTRENC` (R101). -/
  | ctrenc
  /-- `CTRDEC n` (R103): `n` is how many bytes the host presents in `CB` (R65). -/
  | ctrdec (n : Nat)
  /-- `HMAC` (R120). -/
  | hmac
  /-- `TRUNC` (R141). -/
  | trunc
  /-- `FORMAT` (R143). -/
  | format
  /-- `TOTPCTR` (R151). -/
  | totpctr
  /-- `HOTP` (R152). -/
  | hotp
  /-- `TOTP` (R153). -/
  | totp
  /-- `WIPE` (R155). -/
  | wipe
  deriving DecidableEq, Repr

end Sys2Proof
end

