-- ==== Sys2Proof/WellFormed.lean ====
section
/-! DEFINITION. Which terms of `Instr` a command word can spell: the only operand is an 8-bit
immediate (spec/30_encoding.md R62, R65). -/

namespace Sys2Proof

/-- A command the encoding can spell. The one check is that of R65: `CTRDEC`'s `n` is "an unsigned
integer 0 to 255". -/
def Instr.wellFormed : Instr → Bool
  | .nop => true
  | .decb32 => true
  | .dechex => true
  | .ctrenc => true
  | .ctrdec n => decide (n ≤ 255)
  | .hmac => true
  | .trunc => true
  | .format => true
  | .totpctr => true
  | .hotp => true
  | .totp => true
  | .wipe => true

end Sys2Proof
end

