-- ==== Sys2Proof/Decode.lean ====
section
/-! DEFINITION. Decoding a command word, total on all 2^32 words and rejecting by name
(spec/30_encoding.md R60 to R66), and the encoder written from the same opcode map. -/

namespace Sys2Proof

/-- Why a word is no command: the three kinds of illegal word R64 lists. What the core does with any
of them is the same, `STATUS.ERR <- 6` (`Machine.runCommandWord`). -/
inductive IllegalWord where
  /-- A non-zero bit in `RSV` = bits 31:16. -/
  | reservedNotZero
  /-- `OP` is in the map, takes no operand, and `IMM8` is not zero. -/
  | immediateNotZero
  /-- `OP` is not in the map of R63. -/
  | unassignedOpcode
  deriving DecidableEq, Repr

/-- `OP` = bits 7:0 (R60). -/
def opField (w : Word) : BitVec 8 := w.extractLsb' 0 8

/-- `IMM8` = bits 15:8 (R60). -/
def immField (w : Word) : BitVec 8 := w.extractLsb' 8 8

/-- `RSV` = bits 31:16 (R60). -/
def rsvField (w : Word) : BitVec 16 := w.extractLsb' 16 16

/-- The opcode of `CTRDEC`, the one command of format N (R62, R63). -/
def ctrdecOpcode : BitVec 8 := 0x04

/-- The rows of the opcode map of R63 in format Z, which carries no operand (R61). -/
def opcodeMapZ : List (BitVec 8 × Instr) :=
  [(0x00, .nop), (0x01, .decb32), (0x02, .dechex), (0x03, .ctrenc), (0x05, .hmac), (0x06, .trunc),
   (0x07, .format), (0x08, .totpctr), (0x10, .hotp), (0x11, .totp), (0x1F, .wipe)]

/-- `decode(w)` of R66. Where a word is illegal for two reasons at once the name given is that of
the first test of R66 to fail, but that an opcode outside the map is named before its immediate (DESIGN CHOICE, safe: the name
changes nothing, notes/assumptions/10). -/
def decode (w : Word) : Except IllegalWord Instr :=
  if rsvField w ≠ 0 then .error .reservedNotZero
  else if opField w = ctrdecOpcode then .ok (.ctrdec (immField w).toNat)
  else
    match opcodeMapZ.lookup (opField w) with
    | none => .error .unassignedOpcode
    | some i => if immField w ≠ 0 then .error .immediateNotZero else .ok i

/-- `OP` of a command (R63). -/
def opcodeOf : Instr → BitVec 8
  | .nop => 0x00
  | .decb32 => 0x01
  | .dechex => 0x02
  | .ctrenc => 0x03
  | .ctrdec _ => 0x04
  | .hmac => 0x05
  | .trunc => 0x06
  | .format => 0x07
  | .totpctr => 0x08
  | .hotp => 0x10
  | .totp => 0x11
  | .wipe => 0x1F

/-- `IMM8` of a command: `n` in format N, zero in format Z (R60 to R62). -/
def immediateOf : Instr → BitVec 8
  | .nop => 0
  | .decb32 => 0
  | .dechex => 0
  | .ctrenc => 0
  | .ctrdec n => BitVec.ofNat 8 n
  | .hmac => 0
  | .trunc => 0
  | .format => 0
  | .totpctr => 0
  | .hotp => 0
  | .totp => 0
  | .wipe => 0

/-- The command word of a command: `RSV` zero, then `IMM8`, then `OP` (R60 to R62). -/
def encode (i : Instr) : Word := (0 : BitVec 16) ++ immediateOf i ++ opcodeOf i

/-- What the decoder reads from an instruction of the opcode table whose `nbits` bits are `w`. Every
row is one 32-bit command word, handed to the core as one 32-bit value and held nowhere in memory,
so there is no byte order to settle (DEDUCED, safe); bits above `nbits` are zero (DESIGN CHOICE, safe;
notes/assumptions/3). -/
def decodeTableWord (nbits w : Nat) : Option Instr :=
  (decode (BitVec.ofNat 32 (w % 2 ^ nbits))).toOption

end Sys2Proof
end

