-- ==== Sys2Proof/Machine/State.lean ====
section
/-! DEFINITION. The state of one YOTP core as plain data, the events its host can send it, the
reasons a step stops, and the state after reset (spec/10_state.md R10 to R28). -/

namespace Sys2Proof.Machine

/-- The status codes `STATUS.ERR` can hold (spec/30_encoding.md R69, spec/60_exceptions.md R170).
Codes 8 to 15 are never produced and "the field cannot hold them" (spec/93 V5), so they have no
constructor. DEDUCED, safe (notes/assumptions/7). -/
inductive Status where
  /-- 0: the command completed. -/
  | ok
  /-- 1: a character outside the alphabet, or an odd-length hex text. -/
  | invalidFormat
  /-- 2: the key is empty. -/
  | invalidKey
  /-- 3: the digit count is outside 1 to 9. -/
  | invalidDigits
  /-- 4: the time step is zero or negative. -/
  | invalidTimeStep
  /-- 5: `CTRDEC` was told a length other than 8. -/
  | invalidLength
  /-- 6: the word written to `CMD` is no command. -/
  | illegalCommand
  /-- 7: a length register is above its buffer's capacity. -/
  | capacityExceeded
  deriving DecidableEq, Repr

/-- What the world outside can do to the core: the host's accesses to the register space
(spec/20_memory.md R41) and the reset event (spec/70_reset_and_hazards.md R190). Offsets and widths
are counted in bytes and are any number, so that an access the core does not accept can be
written down. -/
inductive HostEvent where
  /-- `MemRead(off, width)`. -/
  | read (off width : Nat)
  /-- `MemWrite(off, width, v)`. -/
  | write (off width : Nat) (v : Word)
  /-- The reset input, or power-up (R190). -/
  | reset
  deriving DecidableEq, Repr

/-- The architectural state of one core, exactly that of R10, and two fields of the model's own
(`host`, `answer`) for the port through which the host drives it: the core has no program counter
and no stored program (R24), commands come from the host's writes. -/
structure State where
  /-- `STATUS.ERR` (R12), 4 bits; bits 31:4 of `STATUS` read as zero. -/
  status : Status
  /-- `DIGITS` (R13), 32 bits. -/
  digits : Word
  /-- `TV` (R14): bits 30:0; bit 31 is hard-wired to zero and is no storage. DEDUCED, safe
  (notes/assumptions/8). -/
  tv : BitVec 31
  /-- `CTR` (R15), 64 bits. -/
  ctr : DWord
  /-- `TIME` (R16), 64 bits. -/
  time : DWord
  /-- `EPOCH` (R17), 64 bits. -/
  epoch : DWord
  /-- `STEP` (R18), 64 bits. -/
  timeStep : DWord
  /-- `TEXTLEN` (R20), 32 bits. -/
  textLen : Word
  /-- `KEYLEN` (R21), 32 bits. -/
  keyLen : Word
  /-- `CODELEN` (R25), 32 bits. -/
  codeLen : Word
  /-- `CB` (R19), the 8 counter bytes. -/
  cb : Buf 8
  /-- `DIGEST` (R22), 20 bytes. -/
  digest : Buf 20
  /-- `CODE` (R25), 12 bytes. -/
  code : Buf Config.codeMax
  /-- `TEXT` (R20), 256 bytes. -/
  text : Buf Config.textMax
  /-- `KEY` (R21), 160 bytes. -/
  key : Buf Config.keyMax
  /-- MODEL'S OWN: the events the host has issued and the core has not yet performed, in the order
  of issue (R49). DESIGN CHOICE, safe (notes/assumptions/1). -/
  host : List HostEvent
  /-- MODEL'S OWN: the word the event performed last returned to the host; `none` where that event
  was no read (R42). DESIGN CHOICE, safe (notes/assumptions/2). -/
  answer : Option Word
  deriving DecidableEq, Repr

/-- Reasons the core stops with a fault: there are none. A failing command is no fault of the
machine, it is a next state with a status code (R172), and an access the core does not accept is
refused (R41). Nothing raises one, which is safe. -/
inductive Fault where
  deriving DecidableEq, Repr

/-- Reasons a step is refused. -/
inductive Refusal where
  /-- An instruction that has no meaning yet, by its mnemonic in spec/opcode_table.json. Raised by
  `exec` for such an arm; there is none left. Safe. -/
  | notModelled (mnemonic : String)
  /-- A host access of a width other than 4 bytes (R41: "a model gives it no step (it refuses it)").
  Raised by `perform`. Safe. -/
  | widthNotAccepted
  /-- A host access at an offset that is no multiple of 4 (R41). Raised by `perform`. Safe. -/
  | offsetNotAligned
  /-- A host access outside `0x000..0xFFF` (R41). Raised by `perform`. Safe. -/
  | offsetOutsideWindow
  deriving DecidableEq, Repr

/-- The state after reset (R28, R190): every register zero, but `DIGITS` = 6 and `STEP` = 30. The
spec states the reset value of every register. Nothing is pending and nothing was answered:
DESIGN CHOICE, safe (notes/assumptions/1, notes/assumptions/2). -/
def State.reset : State where
  status := .ok
  digits := Config.defaultDigits
  tv := 0
  ctr := 0
  time := 0
  epoch := Config.defaultEpoch
  timeStep := Config.defaultStep
  textLen := 0
  keyLen := 0
  codeLen := 0
  cb := Vector.replicate 8 0
  digest := Vector.replicate 20 0
  code := Vector.replicate Config.codeMax 0
  text := Vector.replicate Config.textMax 0
  key := Vector.replicate Config.keyMax 0
  host := []
  answer := none

end Sys2Proof.Machine
end

