-- ==== Sys2Proof/Machine/Ops.lean ====
section
/-! DEFINITION. The named operations over the state: how a command ends (with its results, or by
raising a failure), and the byte buffers (spec/10_state.md R23, spec/60_exceptions.md R172,
spec/20_memory.md R44). -/

namespace Sys2Proof.Machine

/-! ### How a command ends -/

/-- `raise <Kind>` (R172): `STATUS.ERR` takes the kind's code and nothing else changes. This is the
core's whole exception mechanism: nothing is saved, control goes nowhere, and there is no return
from it (R172, R175). -/
def State.raise (s : State) (k : Status) : State := { s with status := k }

/-- The end of a command that failed no check: all its results, and `STATUS.ERR <- 0` (R23 4b). -/
def State.succeed (s : State) : State := { s with status := .ok }

/-- A command ends in a next state either way (R23): with the code of its first failing check and
`s` otherwise as it was before the command, or with the results `t` and the code 0. -/
def conclude (s : State) (r : Except Status State) : Host.Outcome State Fault Refusal :=
  match r with
  | .error k => .next (s.raise k)
  | .ok t => .next t.succeed

/-- One check of a command's pseudocode: `if bad : raise k` (R23, R173). -/
def failIf (bad : Bool) (k : Status) : Except Status Unit :=
  if bad then .error k else .ok ()

/-! ### Byte buffers -/

/-- `BUF[i]` (R7); zero past the end, where no rule reads (DESIGN CHOICE, safe; notes/assumptions/13). -/
def byteAt {n : Nat} (b : Buf n) (i : Nat) : Byte := b.toList.getD i 0

/-- `BUF[0..len-1]` (R7): the bytes a length register counts. -/
def firstBytes {n : Nat} (b : Buf n) (len : Nat) : List Byte := b.toList.take len

/-- A whole buffer rewritten: the bytes given, then `0x00` up to its end (R83, R143; D21). -/
def fillBuf (n : Nat) (bs : List Byte) : Buf n :=
  ⟨((bs ++ List.replicate n 0).take n).toArray, by simp⟩

/-- `be32(b0, b1, b2, b3)` (R7): the first byte is the most significant. -/
def be32 (b0 b1 b2 b3 : Byte) : Word := b0 ++ b1 ++ b2 ++ b3

/-- Byte `j` of a word, byte 0 the most significant: `v[31-8j : 24-8j]` (R43, R44). -/
def wordByte (v : Word) (j : Nat) : Byte := v.extractLsb' (24 - 8 * j) 8

/-- Word `w` of a buffer: `be32(BUF[4w..4w+3])` (R42, R44). -/
def bufWord {n : Nat} (b : Buf n) (w : Nat) : Word :=
  be32 (byteAt b (4 * w)) (byteAt b (4 * w + 1)) (byteAt b (4 * w + 2)) (byteAt b (4 * w + 3))

/-- A write of word `w` of a buffer: `BUF[4w+j] <- v[31-8j : 24-8j]` for j = 0..3 (R43). -/
def setBufWord {n : Nat} (b : Buf n) (w : Nat) (v : Word) : Buf n :=
  (((b.setIfInBounds (4 * w) (wordByte v 0)).setIfInBounds (4 * w + 1) (wordByte v 1)).setIfInBounds
    (4 * w + 2) (wordByte v 2)).setIfInBounds (4 * w + 3) (wordByte v 3)

/-! ### The halves of a 64-bit register -/

/-- Bits 63:32, the word at the lower offset (R48). -/
def highWord (d : DWord) : Word := d.extractLsb' 32 32

/-- Bits 31:0 (R48). -/
def lowWord (d : DWord) : Word := d.extractLsb' 0 32

/-- A host write of the high half; the low half stays (R48). -/
def setHighWord (d : DWord) (v : Word) : DWord := v ++ lowWord d

/-- A host write of the low half; the high half stays (R48). -/
def setLowWord (d : DWord) (v : Word) : DWord := highWord d ++ v

end Sys2Proof.Machine
end

