-- ==== Sys2Proof/Machine/Operands.lean ====
section
/-! DEFINITION. The operand forms of the commands, and how their results are written back. There are
no register fields and no addressing modes (spec/30_encoding.md R65): an operand is a register read
as an unsigned or a signed number, or the bytes of a buffer that its length register counts. -/

namespace Sys2Proof.Machine

/-! ### Operands read -/

/-- `TEXT[0..TEXTLEN-1]`, the text secret (R20). -/
def State.textChars (s : State) : List Byte := firstBytes s.text s.textLen.toNat

/-- `KEY[0..KEYLEN-1]`, the HMAC key (R21). -/
def State.keyBytes (s : State) : List Byte := firstBytes s.key s.keyLen.toNat

/-- `sext_64(TIME)` (R16). -/
def State.timeSigned (s : State) : Int := s.time.toInt

/-- `sext_64(EPOCH)` (R17). -/
def State.epochSigned (s : State) : Int := s.epoch.toInt

/-- `sext_64(STEP)` (R18). -/
def State.stepSigned (s : State) : Int := s.timeStep.toInt

/-! ### Numbers as bytes -/

/-- `bytes_be(v, n)` (R7): the `n` bytes of `v`, most significant first. -/
def bytesBE (v n : Nat) : List Byte :=
  (List.range n).map fun i => BitVec.ofNat 8 (v >>> (8 * (n - 1 - i)))

/-! ### Results written -/

/-- `KEY[0..m-1] <- out ; KEY[m..KEY_MAX-1] <- 0x00 ; KEYLEN <- m` (R83, R86). -/
def State.loadKey (s : State) (out : List Byte) : State :=
  { s with key := fillBuf Config.keyMax out, keyLen := BitVec.ofNat 32 out.length }

/-- `CODE[0..n-1] <- str ; CODE[n..11] <- 0x00 ; CODELEN <- n` (R143, R152). -/
def State.loadCode (s : State) (str : List Byte) : State :=
  { s with code := fillBuf Config.codeMax str, codeLen := BitVec.ofNat 32 str.length }

end Sys2Proof.Machine
end

