-- ==== Sys2Proof/Machine/Flags.lean ====
section
/-! DEFINITION. The status codes and the checks that set them. `STATUS.ERR` is the core's only flag
(spec/10_state.md R26): a command writes 0 or the code of its first failing check
(spec/60_exceptions.md R170, R173). -/

namespace Sys2Proof.Machine

/-- The 4-bit number of a status code (R69). -/
def Status.code : Status → BitVec 4
  | .ok => 0
  | .invalidFormat => 1
  | .invalidKey => 2
  | .invalidDigits => 3
  | .invalidTimeStep => 4
  | .invalidLength => 5
  | .illegalCommand => 6
  | .capacityExceeded => 7

/-- `STATUS` as the host reads it: `ERR` in bits 3:0, bits 31:4 zero (R12). -/
def Status.word (k : Status) : Word := (0 : BitVec 28) ++ k.code

/-- `if TEXTLEN > TEXT_MAX : raise CapacityExceeded` (R83, R86). -/
def checkTextCapacity (s : State) : Except Status Unit :=
  failIf (decide (s.textLen.toNat > Config.textMax)) .capacityExceeded

/-- `if KEYLEN > KEY_MAX : raise CapacityExceeded` (R120). -/
def checkKeyCapacity (s : State) : Except Status Unit :=
  failIf (decide (s.keyLen.toNat > Config.keyMax)) .capacityExceeded

/-- `if KEYLEN = 0 : raise InvalidKey` (R120). -/
def checkKeyPresent (s : State) : Except Status Unit :=
  failIf (decide (s.keyLen.toNat = 0)) .invalidKey

/-- `if DIGITS < 1 or DIGITS > 9 : raise InvalidDigits` (R143). -/
def checkDigits (s : State) : Except Status Unit :=
  failIf (decide (s.digits.toNat < 1) || decide (s.digits.toNat > 9)) .invalidDigits

/-- `if sext_64(STEP) <= 0 : raise InvalidTimeStep` (R151). -/
def checkTimeStep (s : State) : Except Status Unit :=
  failIf (decide (s.stepSigned ≤ 0)) .invalidTimeStep

/-- `if m = 0 : raise InvalidKey`, the decoders' check of their own output (R83, R86, D20). -/
def checkDecoded (out : List Byte) : Except Status Unit :=
  failIf (decide (out.length = 0)) .invalidKey

end Sys2Proof.Machine
end

