-- ==== Sys2Proof/Machine/CounterCodec.lean ====
section
/-! DEFINITION. The counter codec: `CTRENC` and `CTRDEC` (spec/41_counter_codec.md). -/

namespace Sys2Proof.Machine

/-- `ctr_encode(c)` (R100): the 8 bytes of a counter, `b[i] = c[63-8i : 56-8i]`. -/
def ctrEncode (c : DWord) : Buf 8 := fillBuf 8 (bytesBE c.toNat 8)

/-- `ctr_decode(b)` (R102): `be64` of the 8 bytes, the first the most significant. -/
def ctrDecode (b : Buf 8) : DWord :=
  byteAt b 0 ++ byteAt b 1 ++ byteAt b 2 ++ byteAt b 3 ++ byteAt b 4 ++ byteAt b 5 ++ byteAt b 6 ++
    byteAt b 7

/-- `CTRENC`: encode the counter register into the counter bytes (R101). It cannot fail. -/
def execCtrenc (s : State) : Host.Outcome State Fault Refusal :=
  conclude s (.ok { s with cb := ctrEncode s.ctr })

/-- What `CTRDEC n` computes, or the code it fails with (R103). -/
def ctrdec (n : Nat) (s : State) : Except Status State := do
  failIf (decide (n ≠ 8)) .invalidLength
  return { s with ctr := ctrDecode s.cb }

/-- `CTRDEC n`: decode `n` counter bytes into the counter register (R103). -/
def execCtrdec (n : Nat) (s : State) : Host.Outcome State Fault Refusal := conclude s (ctrdec n s)

end Sys2Proof.Machine
end

