-- ==== Sys2Proof/Machine/Sha1.lean ====
section
/-! DEFINITION. The function `SHA1` for a message of any length (spec/42_sha1_hmac.md R110 to R116).
All additions are modulo 2^32, as `BitVec 32` adds. -/

namespace Sys2Proof.Machine

/-- Five 32-bit words: a hash value `H0..H4` (R113), and the working variables `a..e` of a
compression (R116). -/
structure Chain where
  a : Word
  b : Word
  c : Word
  d : Word
  e : Word
  deriving DecidableEq, Repr

/-! ### Padding and parsing -/

/-- The least number of zero bytes that fills the last block: `z = (55 - L) mod 64` (R111). -/
def padZeros (len : Nat) : Nat := ((55 - (len : Int)) % 64).toNat

/-- The padded message: `m || 0x80 || zeros(z) || bytes_be(8 * L, 8)` (R111). -/
def padMessage (m : List Byte) : List Byte :=
  m ++ [0x80] ++ List.replicate (padZeros m.length) 0 ++ bytesBE (8 * m.length) 8

/-- `N = floor((L + 8) / 64) + 1`, the number of blocks of the padded message (R111). -/
def blockCount (len : Nat) : Nat := (len + 8) / 64 + 1

/-- `M[i][0..15]`, the 16 words of block `i` of the padded message `p`: word `t` is
`be32(p[64i+4t..64i+4t+3])` (R112). -/
def blockWords (p : List Byte) (i : Nat) : List Word :=
  (List.range 16).map fun t =>
    be32 (p.getD (64 * i + 4 * t) 0) (p.getD (64 * i + 4 * t + 1) 0) (p.getD (64 * i + 4 * t + 2) 0)
      (p.getD (64 * i + 4 * t + 3) 0)

/-! ### The compression function -/

/-- `ROTL32(x, n)` (R7), for `0 < n < 32`. -/
def rotl32 (x : Word) (n : Nat) : Word := (x <<< n) ||| (x >>> (32 - n))

/-- `f(t; b, c, d)`: Ch, Parity, Maj, Parity (R114). -/
def roundFunction (t : Nat) (b c d : Word) : Word :=
  if t < 20 then (b &&& c) ||| (~~~b &&& d)
  else if t < 40 then b ^^^ c ^^^ d
  else if t < 60 then (b &&& c) ||| (b &&& d) ||| (c &&& d)
  else b ^^^ c ^^^ d

/-- `K(t)` (R114). -/
def roundConstant (t : Nat) : Word :=
  if t < 20 then 0x5A827999
  else if t < 40 then 0x6ED9EBA1
  else if t < 60 then 0x8F1BBCDC
  else 0xCA62C1D6

/-- `k` further words of a message schedule held newest first, so that `W[t-3]`, `W[t-8]`, `W[t-14]`
and `W[t-16]` stand at positions 2, 7, 13 and 15 (R115). -/
def extendSchedule : Nat → List Word → List Word
  | 0, ws => ws
  | k + 1, ws =>
    extendSchedule k
      (rotl32 (ws.getD 2 0 ^^^ ws.getD 7 0 ^^^ ws.getD 13 0 ^^^ ws.getD 15 0) 1 :: ws)

/-- The message schedule `W[0..79]` of a block of 16 words (R115). -/
def schedule (block : List Word) : List Word := (extendSchedule 64 block.reverse).reverse

/-- Round `t` of the compression (R116). -/
def sha1Round (t : Nat) (v : Chain) (w : Word) : Chain where
  a := rotl32 v.a 5 + roundFunction t v.b v.c v.d + v.e + roundConstant t + w
  b := v.a
  c := rotl32 v.b 30
  d := v.c
  e := v.d

/-- The rounds from `t` on, one for each word of the schedule that is left (R116). -/
def sha1Rounds : Nat → Chain → List Word → Chain
  | _, v, [] => v
  | t, v, w :: ws => sha1Rounds (t + 1) (sha1Round t v w) ws

/-- One block folded into the hash value: 80 rounds, then the sums `H0 + a` to `H4 + e` (R116). -/
def compress (h : Chain) (block : List Word) : Chain :=
  let v := sha1Rounds 0 h (schedule block)
  { a := h.a + v.a, b := h.b + v.b, c := h.c + v.c, d := h.d + v.d, e := h.e + v.e }

/-- The initial hash value (R113). -/
def initialHash : Chain where
  a := 0x67452301
  b := 0xEFCDAB89
  c := 0x98BADCFE
  d := 0x10325476
  e := 0xC3D2E1F0

/-! ### The hash -/

/-- The hash value as 20 bytes, each word most significant byte first (R116). -/
def chainBytes (h : Chain) : Buf 20 :=
  fillBuf 20 (bytesBE h.a.toNat 4 ++ bytesBE h.b.toNat 4 ++ bytesBE h.c.toNat 4 ++
    bytesBE h.d.toNat 4 ++ bytesBE h.e.toNat 4)

/-- `SHA1(m)` (R110 to R116). -/
def sha1 (m : List Byte) : Buf 20 :=
  let p := padMessage m
  chainBytes ((List.range (blockCount m.length)).foldl
    (fun h i => compress h (blockWords p i)) initialHash)

end Sys2Proof.Machine
end

