-- ==== Sys2Proof/Machine/Hmac.lean ====
section
/-! DEFINITION. The function `HMAC_SHA1` for a key and a message of any length, and the command
`HMAC` (spec/42_sha1_hmac.md R117 to R121). -/

namespace Sys2Proof.Machine

/-- `K0` (R117): a key above 64 bytes is hashed first; then zeros up to 64 bytes. -/
def hmacKeyBlock (k : List Byte) : Buf 64 :=
  fillBuf 64 (if k.length > 64 then (sha1 k).toList else k)

/-- `Ki` and `Ko`: the pad byte applied to all 64 bytes of `K0` (R118). -/
def padKey (k0 : Buf 64) (padByte : Byte) : List Byte := k0.toList.map (· ^^^ padByte)

/-- `HMAC_SHA1(k, m) = SHA1(Ko || SHA1(Ki || m))` (R118). -/
def hmacSha1 (k m : List Byte) : Buf 20 :=
  let k0 := hmacKeyBlock k
  let inner := sha1 (padKey k0 0x36 ++ m)
  sha1 (padKey k0 0x5C ++ inner.toList)

/-- What `HMAC` computes, or the code it fails with (R120). -/
def hmac (s : State) : Except Status State := do
  checkKeyCapacity s
  checkKeyPresent s
  return { s with digest := hmacSha1 s.keyBytes s.cb.toList }

/-- `HMAC`: the HMAC-SHA1 digest of the counter bytes under the key (R120). -/
def execHmac (s : State) : Host.Outcome State Fault Refusal := conclude s (hmac s)

end Sys2Proof.Machine
end

