-- ==== Sys2Proof/Machine/TruncateFormat.lean ====
section
/-! DEFINITION. The dynamic-truncation unit `TRUNC` and the decimal formatter `FORMAT`
(spec/43_truncate_format.md). -/

namespace Sys2Proof.Machine

/-- `dyn_trunc(HS)` (R140): the low nibble of the last byte is an offset, the 4 bytes there are a
big-endian word, and its low 31 bits are the value. -/
def dynTrunc (hs : Buf 20) : BitVec 31 :=
  let offset := (byteAt hs 19 &&& 0x0F).toNat
  let p := be32 (byteAt hs offset) (byteAt hs (offset + 1)) (byteAt hs (offset + 2))
    (byteAt hs (offset + 3)) &&& 0x7FFFFFFF
  p.setWidth 31

/-- `TRUNC`: apply dynamic truncation to the digest register (R141). It cannot fail. -/
def execTrunc (s : State) : Host.Outcome State Fault Refusal :=
  conclude s (.ok { s with tv := dynTrunc s.digest })

/-- `dec_format(P, n)` (R142): the `n` ASCII digits of `P mod 10^n`, most significant first, padded
with `0` on the left. -/
def decFormat (p : BitVec 31) (n : Nat) : List Byte :=
  let v := p.toNat % 10 ^ n
  (List.range n).map fun i => BitVec.ofNat 8 (0x30 + v / 10 ^ (n - 1 - i) % 10)

/-- What `FORMAT` computes, or the code it fails with (R143). -/
def format (s : State) : Except Status State := do
  checkDigits s
  return s.loadCode (decFormat s.tv s.digits.toNat)

/-- `FORMAT`: format the truncated value as a decimal code (R143). -/
def execFormat (s : State) : Host.Outcome State Fault Refusal := conclude s (format s)

end Sys2Proof.Machine
end

