-- ==== Sys2Proof/Machine/HotpTotp.lean ====
section
/-! DEFINITION. The time-step counter unit and the composite commands: `TOTPCTR`, `HOTP`, `TOTP`
(spec/44_hotp_totp.md R150 to R153). -/

namespace Sys2Proof.Machine

/-- `totp_counter(t, t0, x)` (R150): the exact difference, its floor quotient by the step, and that
as a 64-bit two's-complement pattern. -/
def totpCounter (t t0 x : Int) : DWord := BitVec.ofInt 64 ((t - t0).fdiv x)

/-- The counter of the time in `TIME`, `EPOCH` and `STEP` (R151, R153). -/
def State.timeCounter (s : State) : DWord := totpCounter s.timeSigned s.epochSigned s.stepSigned

/-- What `TOTPCTR` computes, or the code it fails with (R151). -/
def totpctr (s : State) : Except Status State := do
  checkTimeStep s
  return { s with ctr := s.timeCounter }

/-- `TOTPCTR`: derive the counter from time, epoch and step (R151). -/
def execTotpctr (s : State) : Host.Outcome State Fault Refusal := conclude s (totpctr s)

/-- `HotpEngine.compute(key, counter, digits)` (R152): the checks of the key and the digit count,
then the counter bytes, the digest, the truncated value and the code, each left in its register. -/
def hotpCompute (counter : DWord) (s : State) : Except Status State := do
  checkKeyCapacity s
  checkKeyPresent s
  checkDigits s
  let cb := ctrEncode counter
  let hs := hmacSha1 s.keyBytes cb.toList
  let p := dynTrunc hs
  return ({ s with cb := cb, digest := hs, tv := p }).loadCode (decFormat p s.digits.toNat)

/-- `HOTP`: the code of the counter in `CTR` (R152). -/
def execHotp (s : State) : Host.Outcome State Fault Refusal := conclude s (hotpCompute s.ctr s)

/-- What `TOTP` computes, or the code it fails with (R153): the time step is checked first, then the
engine of `HOTP` runs on the time's counter, which is written to `CTR`. -/
def totp (s : State) : Except Status State := do
  checkTimeStep s
  let t ← hotpCompute s.timeCounter s
  return { t with ctr := s.timeCounter }

/-- `TOTP`: the code of the time in `TIME` (R153). -/
def execTotp (s : State) : Host.Outcome State Fault Refusal := conclude s (totp s)

end Sys2Proof.Machine
end

