-- ==== Sys2Proof/Machine/Housekeeping.lean ====
section
/-! DEFINITION. The housekeeping commands `NOP` and `WIPE` (spec/44_hotp_totp.md R154, R155). -/

namespace Sys2Proof.Machine

/-- `NOP`: report success and change nothing else (R154). -/
def execNop (s : State) : Host.Outcome State Fault Refusal := conclude s (.ok s)

/-- The registers `WIPE` clears: the text, the key, and everything derived from them (R155). -/
def State.wiped (s : State) : State :=
  { s with
    text := fillBuf Config.textMax []
    textLen := 0
    key := fillBuf Config.keyMax []
    keyLen := 0
    digest := fillBuf 20 []
    tv := 0
    code := fillBuf Config.codeMax []
    codeLen := 0 }

/-- `WIPE`: erase the secret and everything derived from it (R155). It cannot fail. -/
def execWipe (s : State) : Host.Outcome State Fault Refusal := conclude s (.ok s.wiped)

end Sys2Proof.Machine
end

