-- ==== Sys2Proof/Machine/SecretDecoder.lean ====
section
/-! DEFINITION. The secret decoder: `DECB32` and `DECHEX` (spec/40_secret_decoder.md). -/

namespace Sys2Proof.Machine

/-! ### Values of characters -/

/-- `b32val(c)` (R81): the value of a Base32 symbol, with the aliases `0`, `1` and `l`. -/
def b32val (c : Byte) : Option (BitVec 5) :=
  if 0x41 ≤ c.toNat ∧ c.toNat ≤ 0x5A then some (BitVec.ofNat 5 (c.toNat - 0x41))
  else if 0x32 ≤ c.toNat ∧ c.toNat ≤ 0x37 then some (BitVec.ofNat 5 (c.toNat - 0x32 + 26))
  else if c.toNat = 0x30 then some 14
  else if c.toNat = 0x31 then some 8
  else if c.toNat = 0x6C then some 8
  else none

/-- `hexval(c)` (R85): the value of a hexadecimal digit, either case. -/
def hexval (c : Byte) : Option (BitVec 4) :=
  if 0x30 ≤ c.toNat ∧ c.toNat ≤ 0x39 then some (BitVec.ofNat 4 (c.toNat - 0x30))
  else if 0x41 ≤ c.toNat ∧ c.toNat ≤ 0x46 then some (BitVec.ofNat 4 (c.toNat - 0x41 + 10))
  else if 0x61 ≤ c.toNat ∧ c.toNat ≤ 0x66 then some (BitVec.ofNat 4 (c.toNat - 0x61 + 10))
  else none

/-- The values of a text's characters; `InvalidFormat` when any of them has none, wherever in the
text it stands (R83, R86). -/
def valuesOf {α : Type} (val : Byte → Option α) : List Byte → Except Status (List α)
  | [] => .ok []
  | c :: cs =>
    match val c, valuesOf val cs with
    | some v, .ok vs => .ok (v :: vs)
    | some _, .error k => .error k
    | none, _ => .error .invalidFormat

/-! ### Base32 -/

/-- The loop of `b32decode` (R82) from a bit buffer `acc` that holds `nbits` bits: each symbol adds
5 bits, and 8 or more bits emit the top 8 as a byte. -/
def b32pack (acc nbits : Nat) : List (BitVec 5) → List Byte
  | [] => []
  | v :: vs =>
    let acc := acc * 32 + v.toNat
    let nbits := nbits + 5
    if 8 ≤ nbits then
      BitVec.ofNat 8 (acc >>> (nbits - 8)) :: b32pack (acc % 2 ^ (nbits - 8)) (nbits - 8) vs
    else b32pack acc nbits vs

/-- `b32decode(v)` (R82): the packing of symbol values into bytes, most significant bit first; the
bits left over at the end are dropped. -/
def b32decode (vs : List (BitVec 5)) : List Byte := b32pack 0 0 vs

/-- What `DECB32` computes, or the code it fails with (R83). -/
def decb32 (s : State) : Except Status State := do
  checkTextCapacity s
  let vs ← valuesOf b32val s.textChars
  let out := b32decode vs
  checkDecoded out
  return s.loadKey out

/-- `DECB32`: decode the text secret as Base32 into the key (R83). -/
def execDecb32 (s : State) : Host.Outcome State Fault Refusal := conclude s (decb32 s)

/-! ### Hexadecimal -/

/-- `out[k] = h[2k] * 16 + h[2k+1]` (R86): the first character of a pair is the high nibble. A last
digit without a partner is dropped; `DECHEX` has refused an odd length before (DESIGN CHOICE,
safe; notes/assumptions/13). -/
def hexPairs : List (BitVec 4) → List Byte
  | hi :: lo :: rest => (hi ++ lo) :: hexPairs rest
  | [_] => []
  | [] => []

/-- What `DECHEX` computes, or the code it fails with (R86). -/
def dechex (s : State) : Except Status State := do
  checkTextCapacity s
  failIf (decide (s.textLen.toNat % 2 = 1)) .invalidFormat
  let hs ← valuesOf hexval s.textChars
  let out := hexPairs hs
  checkDecoded out
  return s.loadKey out

/-- `DECHEX`: decode the text secret as hexadecimal into the key (R86). -/
def execDechex (s : State) : Host.Outcome State Fault Refusal := conclude s (dechex s)

end Sys2Proof.Machine
end

