-- ==== Sys2Proof/Machine/Dispatch.lean ====
section
/-! DEFINITION. The meaning of every command, one arm per row of spec/opcode_table.json. -/

namespace Sys2Proof.Machine

def exec (i : Instr) (s : State) : Host.Outcome State Fault Refusal :=
  match i with
  | .nop => Sys2Proof.Machine.execNop s
  | .decb32 => Sys2Proof.Machine.execDecb32 s
  | .dechex => Sys2Proof.Machine.execDechex s
  | .ctrenc => Sys2Proof.Machine.execCtrenc s
  | .ctrdec n => Sys2Proof.Machine.execCtrdec n s
  | .hmac => Sys2Proof.Machine.execHmac s
  | .trunc => Sys2Proof.Machine.execTrunc s
  | .format => Sys2Proof.Machine.execFormat s
  | .totpctr => Sys2Proof.Machine.execTotpctr s
  | .hotp => Sys2Proof.Machine.execHotp s
  | .totp => Sys2Proof.Machine.execTotp s
  | .wipe => Sys2Proof.Machine.execWipe s

end Sys2Proof.Machine
end

