-- ==== Sys2Proof/Machine/RegisterSpace.lean ====
section
/-! DEFINITION. The register space: which word stands at which offset, and what a host read and a
host write of each does (spec/20_memory.md R40 to R48). It is a view of the registers; the core has
no memory behind it (R40). -/

namespace Sys2Proof.Machine

/-- The words of the register map (R45) by name; a buffer's words by index. -/
inductive Reg where
  | cmd
  | status
  | digits
  | tv
  | ctrHi
  | ctrLo
  | timeHi
  | timeLo
  | epochHi
  | epochLo
  | stepHi
  | stepLo
  | cb (w : Fin 2)
  | textLen
  | keyLen
  | digest (w : Fin 5)
  | codeLen
  | code (w : Fin 3)
  | text (w : Fin 64)
  | key (w : Fin 40)
  deriving DecidableEq, Repr

/-- The offset of a word (R45). -/
def offsetOf : Reg → Nat
  | .cmd => 0x000
  | .status => 0x004
  | .digits => 0x008
  | .tv => 0x00C
  | .ctrHi => 0x010
  | .ctrLo => 0x014
  | .timeHi => 0x018
  | .timeLo => 0x01C
  | .epochHi => 0x020
  | .epochLo => 0x024
  | .stepHi => 0x028
  | .stepLo => 0x02C
  | .cb w => 0x030 + 4 * w.val
  | .textLen => 0x038
  | .keyLen => 0x03C
  | .digest w => 0x040 + 4 * w.val
  | .codeLen => 0x054
  | .code w => 0x058 + 4 * w.val
  | .text w => 0x100 + 4 * w.val
  | .key w => 0x200 + 4 * w.val

/-- The words below the text buffer that are whole registers or halves of one (R45). -/
def scalarMap : List (Nat × Reg) :=
  [(0x000, .cmd), (0x004, .status), (0x008, .digits), (0x00C, .tv), (0x010, .ctrHi),
   (0x014, .ctrLo), (0x018, .timeHi), (0x01C, .timeLo), (0x020, .epochHi), (0x024, .epochLo),
   (0x028, .stepHi), (0x02C, .stepLo), (0x038, .textLen), (0x03C, .keyLen), (0x054, .codeLen)]

/-- The word at an aligned offset; `none` where the offset is reserved (R45, R46). -/
def regAt (off : Nat) : Option Reg :=
  if h : 0x030 ≤ off ∧ off < 0x038 then some (.cb ⟨(off - 0x030) / 4, by omega⟩)
  else if h : 0x040 ≤ off ∧ off < 0x054 then some (.digest ⟨(off - 0x040) / 4, by omega⟩)
  else if h : 0x058 ≤ off ∧ off < 0x064 then some (.code ⟨(off - 0x058) / 4, by omega⟩)
  else if h : 0x100 ≤ off ∧ off < 0x200 then some (.text ⟨(off - 0x100) / 4, by omega⟩)
  else if h : 0x200 ≤ off ∧ off < 0x2A0 then some (.key ⟨(off - 0x200) / 4, by omega⟩)
  else scalarMap.lookup off

/-- What the host reads from a word of the map (R42). `CMD` reads as zero (R11). -/
def readReg (s : State) : Reg → Word
  | .cmd => 0
  | .status => s.status.word
  | .digits => s.digits
  | .tv => s.tv.setWidth 32
  | .ctrHi => highWord s.ctr
  | .ctrLo => lowWord s.ctr
  | .timeHi => highWord s.time
  | .timeLo => lowWord s.time
  | .epochHi => highWord s.epoch
  | .epochLo => lowWord s.epoch
  | .stepHi => highWord s.timeStep
  | .stepLo => lowWord s.timeStep
  | .cb w => bufWord s.cb w
  | .textLen => s.textLen
  | .keyLen => s.keyLen
  | .digest w => bufWord s.digest w
  | .codeLen => s.codeLen
  | .code w => bufWord s.code w
  | .text w => bufWord s.text w
  | .key w => bufWord s.key w

/-- A host write of a word of the map other than `CMD` (R43): a read-write word takes the value, `TV`
its low 31 bits (R14), and a write to a read-only word is ignored (R12, R25). A write to `CMD` is
the execution of a command, which is not this function's (`perform`). -/
def writeReg (s : State) (r : Reg) (v : Word) : State :=
  match r with
  | .cmd => s
  | .status => s
  | .digits => { s with digits := v }
  | .tv => { s with tv := v.setWidth 31 }
  | .ctrHi => { s with ctr := setHighWord s.ctr v }
  | .ctrLo => { s with ctr := setLowWord s.ctr v }
  | .timeHi => { s with time := setHighWord s.time v }
  | .timeLo => { s with time := setLowWord s.time v }
  | .epochHi => { s with epoch := setHighWord s.epoch v }
  | .epochLo => { s with epoch := setLowWord s.epoch v }
  | .stepHi => { s with timeStep := setHighWord s.timeStep v }
  | .stepLo => { s with timeStep := setLowWord s.timeStep v }
  | .cb w => { s with cb := setBufWord s.cb w v }
  | .textLen => { s with textLen := v }
  | .keyLen => { s with keyLen := v }
  | .digest w => { s with digest := setBufWord s.digest w v }
  | .codeLen => s
  | .code _ => s
  | .text w => { s with text := setBufWord s.text w v }
  | .key w => { s with key := setBufWord s.key w v }

/-- `MemRead(off, 4)` (R42): a reserved offset reads as zero (R46). -/
def readOffset (s : State) (off : Nat) : Word :=
  match regAt off with
  | some r => readReg s r
  | none => 0

/-- `MemWrite(off, 4, v)` at an offset other than `CMD` (R43): a write to a reserved offset is
ignored (R46). -/
def writeOffset (s : State) (off : Nat) (v : Word) : State :=
  match regAt off with
  | some r => writeReg s r v
  | none => s

/-- Whether the register space accepts an access, and the reason where it does not (R41). The order
of the reasons is a DESIGN CHOICE, safe (notes/assumptions/6). -/
def refusalOf (off width : Nat) : Option Refusal :=
  if width ≠ 4 then some .widthNotAccepted
  else if Config.windowBytes ≤ off then some .offsetOutsideWindow
  else if off % 4 ≠ 0 then some .offsetNotAligned
  else none

end Sys2Proof.Machine
end

