-- ==== Sys2Proof/Machine/Bus.lean ====
section
/-! DEFINITION. What the core does on one event of its host (spec/10_state.md R11, R23,
spec/20_memory.md R41 to R49, spec/70_reset_and_hazards.md R190). -/

namespace Sys2Proof.Machine

/-- A host write of `w` to `CMD` executes the command `w` encodes, wholly and at once (R11, R23); a
word that is no command writes `STATUS.ERR <- 6` and nothing else (R64). -/
def runCommandWord (w : Word) (s : State) : Host.Outcome State Fault Refusal :=
  match decode w with
  | .ok i => exec i s
  | .error _ => .next (s.raise .illegalCommand)

/-- One event performed completely (R49), in a state from whose queue it is taken already. A read
answers its word and changes no register (R42); a write to `CMD` runs a command and any other
write changes its own word (R43); reset sets every register and leaves what the host sends next (R190; DESIGN
CHOICE, safe, notes/assumptions/4). An access that is not accepted is refused (R41; DEDUCED, safe,
notes/assumptions/6). -/
def perform (e : HostEvent) (s : State) : Host.Outcome State Fault Refusal :=
  match e with
  | .read off width =>
    match refusalOf off width with
    | some r => .refused r
    | none => .next { s with answer := some (readOffset s off) }
  | .write off width v =>
    match refusalOf off width with
    | some r => .refused r
    | none => if off = offsetOf .cmd then runCommandWord v s else .next (writeOffset s off v)
  | .reset => .next { State.reset with host := s.host }

end Sys2Proof.Machine
end

