-- ==== Sys2Proof/Machine/Step.lean ====
section
/-! DEFINITION. One step of the machine: the next event of the host, performed completely. -/

namespace Sys2Proof.Machine

/-- One step. The host's accesses are performed one at a time in the order of issue (R49); with none
pending the core is idle and stays as it is (R191, R203). DESIGN CHOICE, safe: an idle step is a next
state equal to the state (notes/assumptions/1). -/
def step (s : State) : Host.Outcome State Fault Refusal :=
  match s.host with
  | [] => .next s
  | e :: rest => perform e { s with host := rest, answer := none }

/-- `s` with the command word `w` (its low `nbits` bits) as the next thing its host sends: a write of
`w` to `CMD`, before all that is pending. The core fetches nothing, "a command word is taken from
the data of the `CMD` write itself" (R51). DESIGN CHOICE, safe (notes/assumptions/1). -/
def State.withFetchWord (s : State) (nbits w : Nat) : State :=
  { s with host := .write (offsetOf .cmd) 4 (BitVec.ofNat 32 (w % 2 ^ nbits)) :: s.host }

end Sys2Proof.Machine
end

