-- ==== Sys2Proof/Machine/Script.lean ====
section
/-! DEFINITION. The host-script notation and its pseudo-commands as lists of host accesses
(spec/30_encoding.md R71, R72). None of it is a command of the core. -/

namespace Sys2Proof.Machine

/-- The 64-bit registers `wr64` names (R72). -/
inductive Reg64 where
  | ctr
  | time
  | epoch
  | step
  deriving DecidableEq, Repr

/-- `R_HI` of a 64-bit register (R48). -/
def highReg : Reg64 → Reg
  | .ctr => .ctrHi
  | .time => .timeHi
  | .epoch => .epochHi
  | .step => .stepHi

/-- `R_LO` of a 64-bit register (R48). -/
def lowReg : Reg64 → Reg
  | .ctr => .ctrLo
  | .time => .timeLo
  | .epoch => .epochLo
  | .step => .stepLo

/-- One line of a host script (R71, R72). -/
inductive ScriptLine where
  /-- `wr REG, value`. -/
  | wr (r : Reg) (v : Word)
  /-- `rd REG`. -/
  | rd (r : Reg)
  /-- `cmd MNEMONIC` and `cmd CTRDEC n`. -/
  | cmd (i : Instr)
  /-- `cmdw value`. -/
  | cmdw (v : Word)
  /-- `wr64 R, v`. -/
  | wr64 (r : Reg64) (v : DWord)
  /-- `wrtext "s"`, at most 256 characters. -/
  | wrtext (cs : List Byte)
  /-- `wrkey b0 b1 ...`, at most 160 bytes. -/
  | wrkey (bs : List Byte)
  /-- `wrdigest b0 ... b19`. -/
  | wrdigest (bs : Buf 20)
  /-- `wrcb b0 ... b7`. -/
  | wrcb (bs : Buf 8)
  deriving DecidableEq, Repr

/-- Whether a line is one the notation has: a command the encoding can spell, a text and a key that
fit their buffers (R71, R72). -/
def ScriptLine.wellFormed : ScriptLine → Bool
  | .wr _ _ => true
  | .rd _ => true
  | .cmd i => i.wellFormed
  | .cmdw _ => true
  | .wr64 _ _ => true
  | .wrtext cs => decide (cs.length ≤ Config.textMax)
  | .wrkey bs => decide (bs.length ≤ Config.keyMax)
  | .wrdigest _ => true
  | .wrcb _ => true

/-- `MemWrite(off, 4, v)`. -/
def writeWord (off : Nat) (v : Word) : HostEvent := .write off 4 v

/-- The writes of the words `0 .. ceil(n/4) - 1` of a buffer that starts at offset `base`, bytes past
the end of `bs` taken as `0x00` (R72). -/
def writeBytes (base : Nat) (bs : List Byte) : List HostEvent :=
  (List.range ((bs.length + 3) / 4)).map fun w =>
    writeWord (base + 4 * w)
      (be32 (bs.getD (4 * w) 0) (bs.getD (4 * w + 1) 0) (bs.getD (4 * w + 2) 0) (bs.getD (4 * w + 3) 0))

/-- The host accesses a well-formed line stands for (R71, R72). -/
def ScriptLine.accesses : ScriptLine → List HostEvent
  | .wr r v => [writeWord (offsetOf r) v]
  | .rd r => [.read (offsetOf r) 4]
  | .cmd i => [writeWord (offsetOf .cmd) (encode i)]
  | .cmdw v => [writeWord (offsetOf .cmd) v]
  | .wr64 r v =>
    [writeWord (offsetOf (highReg r)) (highWord v), writeWord (offsetOf (lowReg r)) (lowWord v)]
  | .wrtext cs =>
    writeBytes (offsetOf (.text 0)) cs ++ [writeWord (offsetOf .textLen) (BitVec.ofNat 32 cs.length)]
  | .wrkey bs =>
    writeBytes (offsetOf (.key 0)) bs ++ [writeWord (offsetOf .keyLen) (BitVec.ofNat 32 bs.length)]
  | .wrdigest bs => writeBytes (offsetOf (.digest 0)) bs.toList
  | .wrcb bs => writeBytes (offsetOf (.cb 0)) bs.toList

/-- A state whose host has further issued the accesses of a script, after all it had issued before. -/
def State.withScript (s : State) (script : List ScriptLine) : State :=
  { s with host := s.host ++ script.flatMap ScriptLine.accesses }

end Sys2Proof.Machine
end

