-- ==== Sys2Proof/Safety.lean ====
section
/-! DEFINITION. The terms in which claims about a run are stated: the accesses the core accepts, the
registers by name with the read and write matrix of the commands, and the well-formed code. -/

namespace Sys2Proof.Machine

/-- An event the core performs: reset, or an aligned 32-bit access inside the window (R41). -/
def HostEvent.accepted : HostEvent → Bool
  | .read off width => decide (width = 4 ∧ off % 4 = 0 ∧ off < Config.windowBytes)
  | .write off width _ => decide (width = 4 ∧ off % 4 = 0 ∧ off < Config.windowBytes)
  | .reset => true

/-- A safe state: the host has issued nothing but events the core accepts. No step is refused from
such a state, whatever the registers hold. -/
def State.hostPolite (s : State) : Bool := s.host.all HostEvent.accepted

/-- The registers of the architectural state (spec/10_state.md R10), by the manual's names. -/
inductive RegName where
  | status | digits | tv | ctr | time | epoch | step | textLen | keyLen | codeLen
  | cb | digest | code | text | key
  deriving DecidableEq, Repr

/-- Two states hold the same in a register. -/
def agreeOn (s t : State) : RegName → Prop
  | .status => s.status = t.status
  | .digits => s.digits = t.digits
  | .tv => s.tv = t.tv
  | .ctr => s.ctr = t.ctr
  | .time => s.time = t.time
  | .epoch => s.epoch = t.epoch
  | .step => s.timeStep = t.timeStep
  | .textLen => s.textLen = t.textLen
  | .keyLen => s.keyLen = t.keyLen
  | .codeLen => s.codeLen = t.codeLen
  | .cb => s.cb = t.cb
  | .digest => s.digest = t.digest
  | .code => s.code = t.code
  | .text => s.text = t.text
  | .key => s.key = t.key

/-- The column "reads" of R29. -/
def registersRead : Instr → List RegName
  | .nop => []
  | .decb32 => [.text, .textLen]
  | .dechex => [.text, .textLen]
  | .ctrenc => [.ctr]
  | .ctrdec _ => [.cb]
  | .hmac => [.key, .keyLen, .cb]
  | .trunc => [.digest]
  | .format => [.tv, .digits]
  | .totpctr => [.time, .epoch, .step]
  | .hotp => [.key, .keyLen, .ctr, .digits]
  | .totp => [.key, .keyLen, .time, .epoch, .step, .digits]
  | .wipe => []

/-- The column "writes on success" of R29. -/
def registersWritten : Instr → List RegName
  | .nop => [.status]
  | .decb32 => [.key, .keyLen, .status]
  | .dechex => [.key, .keyLen, .status]
  | .ctrenc => [.cb, .status]
  | .ctrdec _ => [.ctr, .status]
  | .hmac => [.digest, .status]
  | .trunc => [.tv, .status]
  | .format => [.code, .codeLen, .status]
  | .totpctr => [.ctr, .status]
  | .hotp => [.cb, .digest, .tv, .code, .codeLen, .status]
  | .totp => [.ctr, .cb, .digest, .tv, .code, .codeLen, .status]
  | .wipe => [.text, .textLen, .key, .keyLen, .digest, .tv, .code, .codeLen, .status]

/-- The codes a command can leave in `STATUS.ERR`, "exhaustively" (spec/60_exceptions.md R185);
`CTRDEC n` fails for every `n` but 8 (R103). -/
def possibleCodes : Instr → List Status
  | .nop => [.ok]
  | .decb32 => [.ok, .capacityExceeded, .invalidFormat, .invalidKey]
  | .dechex => [.ok, .capacityExceeded, .invalidFormat, .invalidKey]
  | .ctrenc => [.ok]
  | .ctrdec n => if n = 8 then [.ok] else [.invalidLength]
  | .hmac => [.ok, .capacityExceeded, .invalidKey]
  | .trunc => [.ok]
  | .format => [.ok, .invalidDigits]
  | .totpctr => [.ok, .invalidTimeStep]
  | .hotp => [.ok, .capacityExceeded, .invalidKey, .invalidDigits]
  | .totp => [.ok, .invalidTimeStep, .capacityExceeded, .invalidKey, .invalidDigits]
  | .wipe => [.ok]

/-- The code registers hold what R25 allows: at most 9 characters, each an ASCII digit, and `0x00`
from `CODELEN` to the end of the buffer (the state of no code, `CODELEN` = 0, included). -/
abbrev State.codeValid (s : State) : Prop :=
  s.codeLen.toNat ≤ 9 ∧
    ∀ i < Config.codeMax,
      (i < s.codeLen.toNat → 0x30 ≤ (byteAt s.code i).toNat ∧ (byteAt s.code i).toNat ≤ 0x39) ∧
        (s.codeLen.toNat ≤ i → byteAt s.code i = 0)

end Sys2Proof.Machine
end

