-- ==== Sys2Proof/Certificates/Slice0/Obligations.lean ====
section
/-! DEFINITION. The statements for the provers, each from the numbered rules of spec/ its docstring
names. OBLIGATIONS.json lists them. -/

open Sys2Proof Sys2Proof.Machine

/-! ### Encoding -/

/-- Decoding and encoding agree, both ways: the words a command can be spelt with and the well-formed
commands are in one-to-one correspondence (R60 to R66). -/
def Obligations.DecodeEncodeAgree : Prop :=
  (∀ i : Instr, i.wellFormed = true → decode (encode i) = .ok i) ∧
    ∀ (w : Word) (i : Instr), decode w = .ok i → i.wellFormed = true ∧ encode i = w

/-- "A word `w` is the command iff `w & mask = match`" (R63), for every row of the opcode map. -/
def Obligations.DecodeFollowsOpcodeMap : Prop :=
  ∀ w : Word,
    (decode w = .ok .nop ↔ w &&& 0xFFFFFFFF = 0x00000000) ∧
    (decode w = .ok .decb32 ↔ w &&& 0xFFFFFFFF = 0x00000001) ∧
    (decode w = .ok .dechex ↔ w &&& 0xFFFFFFFF = 0x00000002) ∧
    (decode w = .ok .ctrenc ↔ w &&& 0xFFFFFFFF = 0x00000003) ∧
    ((∃ n, decode w = .ok (.ctrdec n)) ↔ w &&& 0xFFFF00FF = 0x00000004) ∧
    (decode w = .ok .hmac ↔ w &&& 0xFFFFFFFF = 0x00000005) ∧
    (decode w = .ok .trunc ↔ w &&& 0xFFFFFFFF = 0x00000006) ∧
    (decode w = .ok .format ↔ w &&& 0xFFFFFFFF = 0x00000007) ∧
    (decode w = .ok .totpctr ↔ w &&& 0xFFFFFFFF = 0x00000008) ∧
    (decode w = .ok .hotp ↔ w &&& 0xFFFFFFFF = 0x00000010) ∧
    (decode w = .ok .totp ↔ w &&& 0xFFFFFFFF = 0x00000011) ∧
    (decode w = .ok .wipe ↔ w &&& 0xFFFFFFFF = 0x0000001F)

/-- The immediate of `CTRDEC` is `zext(w[15:8])` "as it stands, not scaled, shifted or
sign-extended" (R62, R65). -/
def Obligations.CtrdecImmediateIsBits15To8 : Prop :=
  ∀ (w : Word) (n : Nat),
    decode w = .ok (.ctrdec n) ↔ (w.toNat = n * 256 + 0x04 ∧ n ≤ 255)

/-- What is illegal, and what an illegal word does (R64): the three kinds of illegal word, each of which
executes as `STATUS.ERR <- 6` and changes nothing else. -/
def Obligations.IllegalWordsReportIllegalCommand : Prop :=
  ∀ w : Word,
    let op := w.toNat % 256
    let imm := w.toNat / 256 % 256
    let map : List Nat := [0x00, 0x01, 0x02, 0x03, 0x04, 0x05, 0x06, 0x07, 0x08, 0x10, 0x11, 0x1F]
    let illegal := w.toNat / 65536 ≠ 0 ∨ op ∉ map ∨ (op ∈ map ∧ op ≠ 0x04 ∧ imm ≠ 0)
    ((∃ e, decode w = .error e) ↔ illegal) ∧
      ∀ s : State, illegal → runCommandWord w s = .next { s with status := .illegalCommand }

/-- "Exactly `11 + 256 = 267` words are legal commands; every other word is illegal" (R66). -/
def Obligations.ExactlyLegalWords267 : Prop :=
  ∃ legal : List Word, legal.length = 11 + 256 ∧ legal.Nodup ∧
    ∀ w : Word, (∃ i, decode w = .ok i) ↔ w ∈ legal

/-- Words written out from the encodings of R60 to R63, one at least for each family, decode to the
commands they stand for, and some illegal words to none (R64). The names the decoder gives illegal
words are the model's choice (notes/assumptions/10). -/
def Obligations.WordsOfTheManualDecode : Prop :=
  decode 0b00000000000000000000000000000000 = .ok .nop ∧
    decode 0b00000000000000000000000000000001 = .ok .decb32 ∧
    decode 0b00000000000000000000000000000010 = .ok .dechex ∧
    decode 0b00000000000000000000000000000011 = .ok .ctrenc ∧
    decode 0b00000000000000000000100000000100 = .ok (.ctrdec 8) ∧
    decode 0b00000000000000001111111100000100 = .ok (.ctrdec 255) ∧
    decode 0b00000000000000000000000000000101 = .ok .hmac ∧
    decode 0b00000000000000000000000000000110 = .ok .trunc ∧
    decode 0b00000000000000000000000000010001 = .ok .totp ∧
    decode 0b00000000000000000000000000011111 = .ok .wipe ∧
    decode 0x00010804 = .error .reservedNotZero ∧
    decode 0x00000110 = .error .immediateNotZero ∧
    decode 0x00000009 = .error .unassignedOpcode

/-! ### The machine: reset, host access, ordering -/

/-- Reset sets every register to the value of the table of R28, at any time and whatever the core
holds (R190); the same state is the one the model starts from. That reset leaves the queue of the
host as it is is the model's choice (notes/assumptions/4). -/
def Obligations.ResetSetsEveryRegister : Prop :=
  let atReset (t : State) : Prop :=
    t.status = .ok ∧ t.digits = 6 ∧ t.tv = 0 ∧ t.ctr = 0 ∧ t.time = 0 ∧ t.epoch = 0 ∧
      t.timeStep = 30 ∧ (∀ i < 8, byteAt t.cb i = 0) ∧ t.textLen = 0 ∧
      (∀ i < 256, byteAt t.text i = 0) ∧ t.keyLen = 0 ∧ (∀ i < 160, byteAt t.key i = 0) ∧
      (∀ i < 20, byteAt t.digest i = 0) ∧ t.codeLen = 0 ∧ ∀ i < 12, byteAt t.code i = 0
  atReset State.reset ∧
    ∀ (s : State) (rest : List HostEvent), s.host = .reset :: rest →
      ∃ t, step s = .next t ∧ atReset t ∧ t.host = rest

/-- With no host event pending the core is idle and stays as it is (R191, R203). That a step of an
idle core is a next state equal to the state is the model's choice (notes/assumptions/1). -/
def Obligations.IdleCoreStaysAsItIs : Prop :=
  ∀ s : State, s.host = [] → step s = .next s ∧ ∀ k, Host.Core.run Sys2Proof.core k s = .next s

/-- A step runs the decoded command: where the host's next event is a write to `CMD` of a word that
decodes to `i`, the step is `exec i` with that event taken from the queue (R11, R23, R51). The
queue and the answer of the port are the model's own (notes/assumptions/1, notes/assumptions/2). -/
def Obligations.StepRunsDecodedCommand : Prop :=
  ∀ (s : State) (rest : List HostEvent) (w : Word) (i : Instr),
    s.host = .write 0x000 4 w :: rest → decode w = .ok i →
      step s = exec i { s with host := rest, answer := none }

/-- Events are performed one at a time in the order of issue, each completely before the next (R49):
a step takes exactly the first event from the queue, and no command, access or reset changes what
the host sends afterwards. The queue is the model's own (notes/assumptions/1, notes/assumptions/4). -/
def Obligations.StepTakesTheFirstEvent : Prop :=
  ∀ (s t : State) (e : HostEvent) (rest : List HostEvent),
    s.host = e :: rest → step s = .next t → t.host = rest

/-- "The only accesses the register space accepts are 32-bit reads and 32-bit writes at offsets that
are multiples of 4" inside the window; any other is refused, and nothing else ever is (R41; the queue and
the form of a refused access are the model's own, notes/assumptions/1, notes/assumptions/6). -/
def Obligations.OnlyAlignedWordAccessesAreAccepted : Prop :=
  ∀ (s : State) (rest : List HostEvent),
    (∀ off width, s.host = .read off width :: rest →
      ((∃ r, step s = .refused r) ↔ ¬ (width = 4 ∧ off % 4 = 0 ∧ off ≤ 0xFFF)) ∧
        ((∃ t, step s = .next t) ↔ (width = 4 ∧ off % 4 = 0 ∧ off ≤ 0xFFF))) ∧
    (∀ off width v, s.host = .write off width v :: rest →
      ((∃ r, step s = .refused r) ↔ ¬ (width = 4 ∧ off % 4 = 0 ∧ off ≤ 0xFFF)) ∧
        ((∃ t, step s = .next t) ↔ (width = 4 ∧ off % 4 = 0 ∧ off ≤ 0xFFF))) ∧
    (s.host = .reset :: rest → ∃ t, step s = .next t)

/-- A host read answers the word the map of R45 gives for its offset, byte by byte, zero for `CMD` and
for reserved offsets, and has no side effect on any register (R42, R46). The queue and the answer of the
port are the model's own (notes/assumptions/1, notes/assumptions/2). -/
def Obligations.HostReadFollowsTheMap : Prop :=
  ∀ (s : State) (rest : List HostEvent) (off : Nat),
    s.host = .read off 4 :: rest → off % 4 = 0 → off ≤ 0xFFF →
      let word {n : Nat} (b : Buf n) (base : Nat) : Word :=
        byteAt b (off - base) ++ byteAt b (off - base + 1) ++ byteAt b (off - base + 2) ++
          byteAt b (off - base + 3)
      step s = .next { s with
        host := rest
        answer := some (
          if off = 0x004 then (0 : BitVec 28) ++ s.status.code
          else if off = 0x008 then s.digits
          else if off = 0x00C then (0 : BitVec 1) ++ s.tv
          else if off = 0x010 then s.ctr.extractLsb 63 32
          else if off = 0x014 then s.ctr.extractLsb 31 0
          else if off = 0x018 then s.time.extractLsb 63 32
          else if off = 0x01C then s.time.extractLsb 31 0
          else if off = 0x020 then s.epoch.extractLsb 63 32
          else if off = 0x024 then s.epoch.extractLsb 31 0
          else if off = 0x028 then s.timeStep.extractLsb 63 32
          else if off = 0x02C then s.timeStep.extractLsb 31 0
          else if 0x030 ≤ off ∧ off < 0x038 then word s.cb 0x030
          else if off = 0x038 then s.textLen
          else if off = 0x03C then s.keyLen
          else if 0x040 ≤ off ∧ off < 0x054 then word s.digest 0x040
          else if off = 0x054 then s.codeLen
          else if 0x058 ≤ off ∧ off < 0x064 then word s.code 0x058
          else if 0x100 ≤ off ∧ off < 0x200 then word s.text 0x100
          else if 0x200 ≤ off ∧ off < 0x2A0 then word s.key 0x200
          else 0) }

/-- A host write (R43): at `CMD` the command runs; at any other offset, a read-write word takes the
value (`TV` its bits 30:0), a read-only or reserved one takes nothing, every other word of the
register space reads as before, and no command runs and no status is set. The queue and the answer
of the port are the model's own (notes/assumptions/1, notes/assumptions/2). -/
def Obligations.HostWriteChangesOnlyItsWord : Prop :=
  ∀ (s : State) (rest : List HostEvent) (off : Nat) (v : Word),
    s.host = .write off 4 v :: rest → off % 4 = 0 → off ≤ 0xFFF →
      (off = 0x000 → step s = runCommandWord v { s with host := rest, answer := none }) ∧
      (off ≠ 0x000 → ∃ t, step s = .next t ∧ t.host = rest ∧ t.answer = none ∧
        t.status = s.status ∧
        (∀ a, a % 4 = 0 → a ≤ 0xFFF → a ≠ off → readOffset t a = readOffset s a) ∧
        readOffset t off =
          if off = 0x00C then v &&& 0x7FFFFFFF
          else if (0x008 ≤ off ∧ off < 0x054) ∨ (0x100 ≤ off ∧ off < 0x2A0) then v
          else readOffset s off)

/-- The register space shows the whole architectural state: two states whose every word reads the same
hold the same in every register (R10, R30, R45). -/
def Obligations.RegisterSpaceShowsTheWholeState : Prop :=
  ∀ s t : State, (∀ off, off % 4 = 0 → off ≤ 0xFFF → readOffset s off = readOffset t off) →
    s = { t with host := s.host, answer := s.answer }

/-- The status codes by number, and `STATUS` as it reads: the code in bits 3:0, zero above (R69, R12);
that there are eight and no more is read from R69 and V5 (notes/assumptions/7). -/
def Obligations.StatusReadsTheCodeNumber : Prop :=
  ∀ s : State,
    (s.status = .ok ↔ readOffset s 0x004 = 0) ∧
    (s.status = .invalidFormat ↔ readOffset s 0x004 = 1) ∧
    (s.status = .invalidKey ↔ readOffset s 0x004 = 2) ∧
    (s.status = .invalidDigits ↔ readOffset s 0x004 = 3) ∧
    (s.status = .invalidTimeStep ↔ readOffset s 0x004 = 4) ∧
    (s.status = .invalidLength ↔ readOffset s 0x004 = 5) ∧
    (s.status = .illegalCommand ↔ readOffset s 0x004 = 6) ∧
    (s.status = .capacityExceeded ↔ readOffset s 0x004 = 7) ∧
    (readOffset s 0x004).toNat ≤ 7

/-- `TV` is "always in [0, 2^31 - 1] whatever the host does": bit 31 reads as zero in every state, and
a host write of any value leaves its low 31 bits (R14; stored as 31 bits, notes/assumptions/8). -/
def Obligations.TruncatedValueTopBitIsHardwired : Prop :=
  ∀ s : State, (readOffset s 0x00C).toNat < 2 ^ 31 ∧
    ∀ (v : Word) (rest : List HostEvent), s.host = .write 0x00C 4 v :: rest →
      ∃ t, step s = .next t ∧ (readOffset t 0x00C).toNat = v.toNat % 2 ^ 31

/-- A core whose host issues none but accepted accesses never stops: every run of any length ends in a
next state, and what is still pending is accepted too (R41, R49, R198; the queue of the host is the
model's own, notes/assumptions/1). -/
def Obligations.PoliteHostNeverStopsTheCore : Prop :=
  ∀ (k : Nat) (s : State), s.hostPolite = true →
    ∃ t, Host.Core.run Sys2Proof.core k s = .next t ∧ t.hostPolite = true

/-! ### How commands end -/

/-- A failing command writes `STATUS.ERR` and nothing else: "every other register and buffer keeps the
value it had before the command" (R172). -/
def Obligations.FailingCommandChangesOnlyStatus : Prop :=
  ∀ (i : Instr) (s t : State), exec i s = .next t → t.status ≠ .ok →
    t = { s with status := t.status }

/-- Every command completes in every state, and the codes it can report are those of the table of
R185, each of them in some state; an illegal word reports 6. -/
def Obligations.CommandsReportExactlyTheirCodes : Prop :=
  (∀ (i : Instr) (s : State), ∃ t, exec i s = .next t ∧ t.status ∈ possibleCodes i) ∧
    (∀ (i : Instr) (k : Status), k ∈ possibleCodes i → ∃ s t, exec i s = .next t ∧ t.status = k) ∧
    ∀ (w : Word) (s : State), (∃ e, decode w = .error e) →
      ∃ t, runCommandWord w s = .next t ∧ t.status = .illegalCommand

/-- No command reads `STATUS.ERR`: what a command does is the same whatever the status of an earlier
one (R26, R175). -/
def Obligations.CommandsIgnoreTheOldStatus : Prop :=
  ∀ (i : Instr) (s : State) (k : Status), exec i { s with status := k } = exec i s

/-- The frame of every command, the column "writes" of R29: a register the row does not list is
unchanged. So are the queue of the host and the answer of the port, which are the model's own
(notes/assumptions/1, notes/assumptions/2). -/
def Obligations.CommandWritesOnlyItsRegisters : Prop :=
  ∀ (i : Instr) (s t : State), exec i s = .next t →
    (∀ r, r ∉ registersWritten i → agreeOn s t r) ∧ t.host = s.host ∧ t.answer = s.answer

/-- "The result of a command is a function of the command word and of the registers that command's
rule lists as read, and of nothing else" (R10), the column "reads" of R29: two states that agree on
those registers get the same status, and on success the same result in every register written. -/
def Obligations.CommandResultDependsOnlyOnItsReads : Prop :=
  ∀ (i : Instr) (s s' t t' : State),
    (∀ r ∈ registersRead i, agreeOn s s' r) → exec i s = .next t → exec i s' = .next t' →
      t.status = t'.status ∧ (t.status = .ok → ∀ r ∈ registersWritten i, agreeOn t t' r)

/-- Bytes of `TEXT` at `TEXTLEN` and above, and of `KEY` at `KEYLEN` and above, are ignored by every
command (R20, R21, R194): with other bytes there it does the same, those bytes themselves apart. -/
def Obligations.BytesBeyondTheLengthAreIgnored : Prop :=
  ∀ (i : Instr) (s t : State) (text' : Buf 256) (key' : Buf 160),
    (∀ j < s.textLen.toNat, byteAt text' j = byteAt s.text j) →
    (∀ j < s.keyLen.toNat, byteAt key' j = byteAt s.key j) →
    exec i s = .next t →
      ∃ t', exec i { s with text := text', key := key' } = .next t' ∧
        t = { t' with text := t.text, key := t.key } ∧
        ((i = .decb32 ∨ i = .dechex) → t.status = .ok → t'.key = t.key)

/-! ### The secret decoder -/

/-- The 35 accepted Base32 characters and their values; every other byte has none, and a text that
holds one "fails with `InvalidFormat`" (R81). -/
def Obligations.Base32AlphabetIsTheTable : Prop :=
  let table : List (Nat × Nat) :=
    [(0x41, 0), (0x42, 1), (0x43, 2), (0x44, 3), (0x45, 4), (0x46, 5), (0x47, 6), (0x48, 7),
      (0x49, 8), (0x4A, 9), (0x4B, 10), (0x4C, 11), (0x4D, 12), (0x4E, 13), (0x4F, 14), (0x50, 15),
      (0x51, 16), (0x52, 17)] ++
    [(0x53, 18), (0x54, 19), (0x55, 20), (0x56, 21), (0x57, 22), (0x58, 23), (0x59, 24), (0x5A, 25),
      (0x32, 26), (0x33, 27), (0x34, 28), (0x35, 29), (0x36, 30), (0x37, 31), (0x30, 14), (0x31, 8),
      (0x6C, 8)]
  (∀ c : Byte, (b32val c).map BitVec.toNat = table.lookup c.toNat) ∧
    ∀ (s : State) (i : Nat), s.textLen.toNat ≤ 256 → i < s.textLen.toNat →
      table.lookup (byteAt s.text i).toNat = none →
        exec .decb32 s = .next { s with status := .invalidFormat }

/-- `b32decode` in the closed form of R84: for symbols of value `v[i]`, the bytes are the
`floor(5n/8)` most significant bytes of `sum v[i] * 32^(n-1-i)` as a `5n`-bit number, for every
length `n`; the last `5n mod 8` bits are dropped whatever they are. -/
def Obligations.Base32PackingClosedForm : Prop :=
  ∀ vs : List (BitVec 5),
    let n := vs.length
    let m := 5 * n / 8
    let total := ∑ i ∈ Finset.range n, (vs.getD i 0).toNat * 32 ^ (n - 1 - i)
    (b32decode vs).length = m ∧
      ∀ k < m, ((b32decode vs).getD k 0).toNat = total / 2 ^ (5 * n % 8) / 256 ^ (m - 1 - k) % 256

/-- `DECB32` whole (R83): on a text of 2 to 256 characters that all have values the key is the packed
bytes with zeros after them, and nothing else changes; its failures in their order. -/
def Obligations.Decb32DecodesTheText : Prop :=
  decode 0x00000001 = .ok .decb32 ∧
  ∀ s : State,
    let n := s.textLen.toNat
    (256 < n → exec .decb32 s = .next { s with status := .capacityExceeded }) ∧
    (n ≤ 256 → (∃ i < n, b32val (byteAt s.text i) = none) →
      exec .decb32 s = .next { s with status := .invalidFormat }) ∧
    (n ≤ 1 → (∀ i < n, b32val (byteAt s.text i) ≠ none) →
      exec .decb32 s = .next { s with status := .invalidKey }) ∧
    (2 ≤ n → n ≤ 256 → ∀ vs : List (BitVec 5), vs.length = n →
      (∀ i < n, b32val (byteAt s.text i) = some (vs.getD i 0)) →
        ∃ t, exec .decb32 s = .next t ∧
          t = { s with key := t.key, keyLen := t.keyLen, status := .ok } ∧
          t.keyLen.toNat = 5 * n / 8 ∧
          (∀ k < 5 * n / 8, byteAt t.key k = (b32decode vs).getD k 0) ∧
          ∀ k, 5 * n / 8 ≤ k → k < 160 → byteAt t.key k = 0)

/-- The hexadecimal digits of either case and their values; every other byte has none, and a text that
holds one, or that has an odd length, fails with `InvalidFormat` (R85). -/
def Obligations.HexDigitsHaveTheirValues : Prop :=
  (∀ (c : Byte) (d : Nat), (hexval c).map BitVec.toNat = some d ↔
      (c.toNat = 0x30 + d ∧ d ≤ 9) ∨ (c.toNat = 0x41 + (d - 10) ∧ 10 ≤ d ∧ d ≤ 15) ∨
        (c.toNat = 0x61 + (d - 10) ∧ 10 ≤ d ∧ d ≤ 15)) ∧
    (∀ s : State, s.textLen.toNat ≤ 256 → s.textLen.toNat % 2 = 1 →
      exec .dechex s = .next { s with status := .invalidFormat }) ∧
    ∀ (s : State) (i : Nat), s.textLen.toNat ≤ 256 → i < s.textLen.toNat →
      (∀ d ≤ 15, (hexval (byteAt s.text i)).map BitVec.toNat ≠ some d) →
        exec .dechex s = .next { s with status := .invalidFormat }

/-- `DECHEX` whole (R86): on an even text of 2 to 256 hexadecimal digits, byte `k` of the key is
`h[2k] * 16 + h[2k+1]`, with zeros after the last; its failures in their order. -/
def Obligations.DechexDecodesTheText : Prop :=
  decode 0x00000002 = .ok .dechex ∧
  ∀ s : State,
    let n := s.textLen.toNat
    (256 < n → exec .dechex s = .next { s with status := .capacityExceeded }) ∧
    (n ≤ 256 → n % 2 = 1 → exec .dechex s = .next { s with status := .invalidFormat }) ∧
    (n ≤ 256 → n % 2 = 0 → (∃ i < n, hexval (byteAt s.text i) = none) →
      exec .dechex s = .next { s with status := .invalidFormat }) ∧
    (n = 0 → exec .dechex s = .next { s with status := .invalidKey }) ∧
    (2 ≤ n → n ≤ 256 → n % 2 = 0 → ∀ h : List (BitVec 4), h.length = n →
      (∀ i < n, hexval (byteAt s.text i) = some (h.getD i 0)) →
        ∃ t, exec .dechex s = .next t ∧
          t = { s with key := t.key, keyLen := t.keyLen, status := .ok } ∧
          t.keyLen.toNat = n / 2 ∧
          (∀ k < n / 2, (byteAt t.key k).toNat =
            (h.getD (2 * k) 0).toNat * 16 + (h.getD (2 * k + 1) 0).toNat) ∧
          ∀ k, n / 2 ≤ k → k < 160 → byteAt t.key k = 0)

/-- "No command other than another successful `DECB32`/`DECHEX` and `WIPE` writes `KEY` or `KEYLEN`"
(R88): where a step changes either, the event was one of those commands, a host write of `KEYLEN`
or of a word of `KEY`, or reset. The queue is the model's own (notes/assumptions/1). -/
def Obligations.KeyChangesOnlyByDecodeWipeOrHost : Prop :=
  ∀ s t : State, step s = .next t → ¬ (t.key = s.key ∧ t.keyLen = s.keyLen) →
    ∃ e rest, s.host = e :: rest ∧
      (e = .reset ∨
        (∃ off v, e = .write off 4 v ∧ (off = 0x03C ∨ (0x200 ≤ off ∧ off < 0x2A0))) ∨
        (∃ w, e = .write 0x000 4 w ∧ t.status = .ok ∧
          (decode w = .ok .decb32 ∨ decode w = .ok .dechex ∨ decode w = .ok .wipe)))

/-! ### The counter codec -/

/-- `CTRENC` (R100, R101): byte `i` of `CB` is `CTR[63-8i : 56-8i]`, so `CB0` reads as `CTR_HI` and
`CB1` as `CTR_LO`; it cannot fail and nothing else changes. -/
def Obligations.CtrencWritesTheCounterBigEndian : Prop :=
  decode 0x00000003 = .ok .ctrenc ∧
  ∀ s : State, ∃ t, exec .ctrenc s = .next t ∧ t = { s with cb := t.cb, status := .ok } ∧
    (∀ i < 8, byteAt t.cb i = s.ctr.extractLsb' (56 - 8 * i) 8) ∧
    readOffset t 0x030 = readOffset s 0x010 ∧ readOffset t 0x034 = readOffset s 0x014

/-- `CTRDEC n` (R103, with R102): for `n` = 8 the counter is the sum of `CB[i] * 256^(7-i)`; for any other
`n` it fails with `InvalidLength`. -/
def Obligations.CtrdecReadsTheCounterBigEndian : Prop :=
  (∀ n ≤ 255, decode (BitVec.ofNat 32 (n <<< 8 ||| 0x04)) = .ok (.ctrdec n)) ∧
  ∀ s : State,
    (∃ t, exec (.ctrdec 8) s = .next t ∧ t = { s with ctr := t.ctr, status := .ok } ∧
      t.ctr.toNat = ∑ i ∈ Finset.range 8, (byteAt s.cb i).toNat * 256 ^ (7 - i)) ∧
    ∀ n, n ≠ 8 → exec (.ctrdec n) s = .next { s with status := .invalidLength }

/-- `ctr_decode` is the big-endian sum and the two codec functions are each other's inverse (R102), and
so are the commands: `CTRENC` then `CTRDEC 8` leaves the counter as it was. -/
def Obligations.CounterCodecRoundTrip : Prop :=
  (∀ b : Buf 8,
      (ctrDecode b).toNat = ∑ i ∈ Finset.range 8, (byteAt b i).toNat * 256 ^ (7 - i)) ∧
    (∀ c : DWord, ctrDecode (ctrEncode c) = c) ∧ (∀ b : Buf 8, ctrEncode (ctrDecode b) = b) ∧
    ∀ s : State, ∃ t u, exec .ctrenc s = .next t ∧ exec (.ctrdec 8) t = .next u ∧
      u = { s with cb := ctrEncode s.ctr, status := .ok }

/-! ### SHA-1 and HMAC -/

/-- Padding (R111): the message, `0x80`, the `z = (55 - L) mod 64` zero bytes that fill a block of 64, and
the length in bits as 8 big-endian bytes (for a message of less than 2^61 bytes, R110);
`floor((L + 8) / 64) + 1` blocks in all. At 2^61 bytes and above it is the model's own extension
(notes/assumptions/13). -/
def Obligations.Sha1PaddingFillsWholeBlocks : Prop :=
  ∀ m : List Byte,
    let len := m.length
    ∃ z : Nat, z < 64 ∧ (z : Int) = (55 - (len : Int)) % 64 ∧
      padMessage m = m ++ [0x80] ++ List.replicate z 0 ++ bytesBE (8 * len) 8 ∧
      (padMessage m).length = 64 * ((len + 8) / 64 + 1) ∧
      (len < 2 ^ 61 →
        ∑ i ∈ Finset.range 8, ((padMessage m).getD (len + 1 + z + i) 0).toNat * 256 ^ (7 - i) =
          8 * len)

/-- The message schedule (R115): the 16 words of the block, then
`W[t] = ROTL32(W[t-3] ^ W[t-8] ^ W[t-14] ^ W[t-16], 1)` up to `t` = 79. -/
def Obligations.Sha1ScheduleFollowsTheRecurrence : Prop :=
  ∀ block : List Word, block.length = 16 →
    let w := fun t => (schedule block).getD t 0
    (schedule block).length = 80 ∧ (∀ t < 16, w t = block.getD t 0) ∧
      ∀ t, 16 ≤ t → t < 80 →
        w t = (w (t - 3) ^^^ w (t - 8) ^^^ w (t - 14) ^^^ w (t - 16)).rotateLeft 1

/-- The compression (R114, R116): the working variables go through 80 rounds from the hash value, each
with the round function and constant of its quarter, and are added to it. -/
def Obligations.Sha1CompressionRunsEightyRounds : Prop :=
  ∀ (h : Chain) (block : List Word), block.length = 16 →
    ∃ v : Nat → Chain, v 0 = h ∧
      (∀ t < 80,
        let x := v t
        let f : Word :=
          if t ≤ 19 then (x.b &&& x.c) ||| ((x.b ^^^ 0xFFFFFFFF) &&& x.d)
          else if 40 ≤ t ∧ t ≤ 59 then (x.b &&& x.c) ||| (x.b &&& x.d) ||| (x.c &&& x.d)
          else x.b ^^^ x.c ^^^ x.d
        let k : Word :=
          if t ≤ 19 then 0x5A827999 else if t ≤ 39 then 0x6ED9EBA1
          else if t ≤ 59 then 0x8F1BBCDC else 0xCA62C1D6
        v (t + 1) = ⟨x.a.rotateLeft 5 + f + x.e + k + (schedule block).getD t 0, x.a,
          x.b.rotateLeft 30, x.c, x.d⟩) ∧
      compress h block =
        ⟨h.a + (v 80).a, h.b + (v 80).b, h.c + (v 80).c, h.d + (v 80).d, h.e + (v 80).e⟩

/-- `SHA1` as a whole (R112, R113, with R110 and R116; at every length, which at 2^61 bytes and above
is the model's own extension, notes/assumptions/13): from the initial hash value, one compression for each
block of 16 big-endian words of the padded message; the result is the five words, most significant
byte first. -/
def Obligations.Sha1FoldsTheBlocks : Prop :=
  ∀ m : List Byte,
    let p := padMessage m
    let blocks := (m.length + 8) / 64 + 1
    ∃ (h : Nat → Chain) (w : Nat → List Word),
      h 0 = ⟨0x67452301, 0xEFCDAB89, 0x98BADCFE, 0x10325476, 0xC3D2E1F0⟩ ∧
      (∀ i < blocks, (w i).length = 16 ∧ h (i + 1) = compress (h i) (w i) ∧
        ∀ t < 16, ((w i).getD t 0).toNat =
          (p.getD (64 * i + 4 * t) 0).toNat * 2 ^ 24 + (p.getD (64 * i + 4 * t + 1) 0).toNat * 2 ^ 16 +
            (p.getD (64 * i + 4 * t + 2) 0).toNat * 2 ^ 8 + (p.getD (64 * i + 4 * t + 3) 0).toNat) ∧
      ∀ j < 4,
        byteAt (sha1 m) j = (h blocks).a.extractLsb' (24 - 8 * j) 8 ∧
        byteAt (sha1 m) (4 + j) = (h blocks).b.extractLsb' (24 - 8 * j) 8 ∧
        byteAt (sha1 m) (8 + j) = (h blocks).c.extractLsb' (24 - 8 * j) 8 ∧
        byteAt (sha1 m) (12 + j) = (h blocks).d.extractLsb' (24 - 8 * j) 8 ∧
        byteAt (sha1 m) (16 + j) = (h blocks).e.extractLsb' (24 - 8 * j) 8

/-- `HMAC_SHA1` (R117, R118): `K0` is the key, or its SHA-1 where it is longer than 64 bytes, with
zeros up to 64 bytes; then `SHA1(Ko || SHA1(Ki || m))` with the pads `0x36` and `0x5C`. At every
length, which where a message hashed has 2^61 bytes or more is the model's own extension
(notes/assumptions/13). -/
def Obligations.HmacIsTheTwoHashes : Prop :=
  ∀ k m : List Byte, ∃ k0 : List Byte,
    k0.length = 64 ∧
    (k.length ≤ 64 → k0 = k ++ List.replicate (64 - k.length) 0) ∧
    (64 < k.length → k0 = (sha1 k).toList ++ List.replicate 44 0) ∧
    hmacSha1 k m =
      sha1 (k0.map (· ^^^ 0x5C) ++ (sha1 (k0.map (· ^^^ 0x36) ++ m)).toList)

/-- The fixed shape of the two hashes over an 8-byte message (R119): each is two compressions, of the
padded key's block and of a second block written out byte by byte. For a key of 2^61 bytes or more it
is the model's own extension (notes/assumptions/13). -/
def Obligations.HmacOfEightBytesIsFourCompressions : Prop :=
  ∀ (k : List Byte) (c : Buf 8),
    let ki := padKey (hmacKeyBlock k) 0x36
    let ko := padKey (hmacKeyBlock k) 0x5C
    let innerBlock := c.toList ++ [0x80] ++ List.replicate 47 0 ++ [0, 0, 0, 0, 0, 0, 0x02, 0x40]
    let inner := chainBytes (compress (compress initialHash (blockWords ki 0)) (blockWords innerBlock 0))
    let outerBlock := inner.toList ++ [0x80] ++ List.replicate 35 0 ++ [0, 0, 0, 0, 0, 0, 0x02, 0xA0]
    hmacSha1 k c.toList =
      chainBytes (compress (compress initialHash (blockWords ko 0)) (blockWords outerBlock 0))

/-- Consequences of the key preparation (R121): zero bytes appended to a key, up to 64 bytes in all, do
not change the digest, and a key longer than 64 bytes gives the digest of its SHA-1. At every length,
which where a message hashed has 2^61 bytes or more is the model's own extension
(notes/assumptions/13). -/
def Obligations.HmacKeysWithTheSameBlockAgree : Prop :=
  (∀ (k m : List Byte) (j : Nat), k.length + j ≤ 64 →
      hmacSha1 (k ++ List.replicate j 0) m = hmacSha1 k m) ∧
    ∀ k m : List Byte, 64 < k.length → hmacSha1 (sha1 k).toList m = hmacSha1 k m

/-- `HMAC` whole (R120): with 1 to 160 key bytes the digest is `HMAC_SHA1(KEY[0..n-1], CB[0..7])` and
nothing else changes; its two failures in their order. -/
def Obligations.HmacCommandHashesTheCounterBytes : Prop :=
  decode 0x00000005 = .ok .hmac ∧
  ∀ s : State,
    let n := s.keyLen.toNat
    (160 < n → exec .hmac s = .next { s with status := .capacityExceeded }) ∧
    (n = 0 → exec .hmac s = .next { s with status := .invalidKey }) ∧
    (1 ≤ n → n ≤ 160 →
      exec .hmac s = .next { s with
        digest := hmacSha1 ((List.range n).map (byteAt s.key)) ((List.range 8).map (byteAt s.cb))
        status := .ok })

/-! ### Truncation and formatting -/

/-- `TRUNC` (R140, R141): the offset is the low nibble of the last digest byte, and the value the four
bytes there, big-endian, without the top bit; it cannot fail and nothing else changes. -/
def Obligations.TruncSelectsThirtyOneBits : Prop :=
  decode 0x00000006 = .ok .trunc ∧
  ∀ s : State,
    let offset := (byteAt s.digest 19).toNat % 16
    let hs := fun i => (byteAt s.digest (offset + i)).toNat
    ∃ t, exec .trunc s = .next t ∧ t = { s with tv := t.tv, status := .ok } ∧
      t.tv.toNat = hs 0 % 128 * 2 ^ 24 + hs 1 * 2 ^ 16 + hs 2 * 2 ^ 8 + hs 3

/-- `FORMAT` (R142, R143): with a digit count `n` of 1 to 9 the code is `n` ASCII digits that spell
`TV mod 10^n`, most significant first, with zero bytes after them; any other count fails with
`InvalidDigits`. -/
def Obligations.FormatSpellsTheValueModTenToTheN : Prop :=
  decode 0x00000007 = .ok .format ∧
  ∀ s : State,
    let n := s.digits.toNat
    (n < 1 ∨ 9 < n → exec .format s = .next { s with status := .invalidDigits }) ∧
    (1 ≤ n → n ≤ 9 → ∃ t, exec .format s = .next t ∧
      t = { s with code := t.code, codeLen := t.codeLen, status := .ok } ∧
      t.codeLen.toNat = n ∧
      (∀ i < n, 0x30 ≤ (byteAt t.code i).toNat ∧ (byteAt t.code i).toNat ≤ 0x39) ∧
      ∑ i ∈ Finset.range n, ((byteAt t.code i).toNat - 0x30) * 10 ^ (n - 1 - i) =
        s.tv.toNat % 10 ^ n ∧
      ∀ i, n ≤ i → i < 12 → byteAt t.code i = 0)

/-- From any state in which the code registers hold what R25 allows, a step leaves them so: at most 9
characters, ASCII digits all, and zero bytes after them. -/
def Obligations.EveryStepKeepsTheCodeWellFormed : Prop :=
  ∀ s t : State, s.codeValid → step s = .next t → t.codeValid

/-- The code registers hold what R25 allows at reset. -/
def Obligations.ResetCodeIsWellFormed : Prop :=
  State.reset.codeValid

/-! ### TOTPCTR, HOTP, TOTP -/

/-- `TOTPCTR` (R150, R151): with a positive step the counter is the pattern, modulo 2^64, of the
greatest integer `q` with `q * STEP <= TIME - EPOCH`, the difference exact; a step of zero or less
fails with `InvalidTimeStep`. -/
def Obligations.TotpctrFloorsTheTime : Prop :=
  decode 0x00000008 = .ok .totpctr ∧
  ∀ s : State,
    let x := s.timeStep.toInt
    let d := s.time.toInt - s.epoch.toInt
    (x ≤ 0 → exec .totpctr s = .next { s with status := .invalidTimeStep }) ∧
    (0 < x → ∃ (t : State) (q : Int), exec .totpctr s = .next t ∧
      t = { s with ctr := t.ctr, status := .ok } ∧
      q * x ≤ d ∧ d < (q + 1) * x ∧ (t.ctr.toNat : Int) = q % 2 ^ 64)

/-- `HOTP` whole (R152): the checks of the key length and the digit count in their order, and, where
none fails, the results of the units in their registers and nothing else changed. -/
def Obligations.HotpComputesTheCode : Prop :=
  decode 0x00000010 = .ok .hotp ∧
  ∀ s : State,
    let n := s.keyLen.toNat
    let g := s.digits.toNat
    (160 < n → exec .hotp s = .next { s with status := .capacityExceeded }) ∧
    (n = 0 → exec .hotp s = .next { s with status := .invalidKey }) ∧
    (1 ≤ n → n ≤ 160 → (g < 1 ∨ 9 < g) → exec .hotp s = .next { s with status := .invalidDigits }) ∧
    (1 ≤ n → n ≤ 160 → 1 ≤ g → g ≤ 9 → ∃ t, exec .hotp s = .next t ∧
      t = { s with
        cb := t.cb, digest := t.digest, tv := t.tv, code := t.code, codeLen := t.codeLen
        status := .ok } ∧
      t.cb = ctrEncode s.ctr ∧
      t.digest = hmacSha1 ((List.range n).map (byteAt s.key)) t.cb.toList ∧
      t.tv = dynTrunc t.digest ∧
      t.codeLen = s.digits ∧
      (∀ i < g, byteAt t.code i = (decFormat t.tv g).getD i 0) ∧
      ∀ i, g ≤ i → i < 12 → byteAt t.code i = 0)

/-- "When none of its checks fails, `HOTP` leaves exactly the state that the sequence `CTRENC`, `HMAC`,
`TRUNC`, `FORMAT` leaves, started from the same state"; when a check fails they differ: `HOTP` writes
nothing but its status, where the first command of the sequence has written `CB` (R156). -/
def Obligations.HotpEqualsTheUnitSequence : Prop :=
  ∀ s : State,
    let checksPass :=
      (1 ≤ s.keyLen.toNat ∧ s.keyLen.toNat ≤ 160) ∧ 1 ≤ s.digits.toNat ∧ s.digits.toNat ≤ 9
    (checksPass → ∃ s1 s2 s3 s4, exec .ctrenc s = .next s1 ∧ exec .hmac s1 = .next s2 ∧
      exec .trunc s2 = .next s3 ∧ exec .format s3 = .next s4 ∧ exec .hotp s = .next s4) ∧
    (¬ checksPass →
      ∃ t, exec .hotp s = .next t ∧ t = { s with status := t.status } ∧ t.status ≠ .ok ∧
        exec .ctrenc s = .next { s with cb := ctrEncode s.ctr, status := .ok })

/-- `TOTP` whole (R153): the time step is checked first, then the checks of `HOTP` in `HOTP`'s order;
where none fails, `CTR` is the time's counter, the other results are those of `HOTP` for it, and
nothing else changes. -/
def Obligations.TotpComputesTheCode : Prop :=
  decode 0x00000011 = .ok .totp ∧
  ∀ s : State,
    let x := s.timeStep.toInt
    let n := s.keyLen.toNat
    let g := s.digits.toNat
    (x ≤ 0 → exec .totp s = .next { s with status := .invalidTimeStep }) ∧
    (0 < x → 160 < n → exec .totp s = .next { s with status := .capacityExceeded }) ∧
    (0 < x → n = 0 → exec .totp s = .next { s with status := .invalidKey }) ∧
    (0 < x → 1 ≤ n → n ≤ 160 → (g < 1 ∨ 9 < g) →
      exec .totp s = .next { s with status := .invalidDigits }) ∧
    (0 < x → 1 ≤ n → n ≤ 160 → 1 ≤ g → g ≤ 9 → ∃ t, exec .totp s = .next t ∧
      t = { s with
        ctr := t.ctr, cb := t.cb, digest := t.digest, tv := t.tv, code := t.code
        codeLen := t.codeLen, status := .ok } ∧
      t.ctr = totpCounter s.time.toInt s.epoch.toInt x ∧
      t.cb = ctrEncode t.ctr ∧
      t.digest = hmacSha1 ((List.range n).map (byteAt s.key)) t.cb.toList ∧
      t.tv = dynTrunc t.digest ∧
      t.codeLen = s.digits ∧
      (∀ i < g, byteAt t.code i = (decFormat t.tv g).getD i 0) ∧
      ∀ i, g ≤ i → i < 12 → byteAt t.code i = 0)

/-- "When no check fails, `TOTP` leaves exactly the state `TOTPCTR` followed by `HOTP` leaves" (R153). -/
def Obligations.TotpEqualsTotpctrThenHotp : Prop :=
  ∀ s : State, 0 < s.timeStep.toInt → 1 ≤ s.keyLen.toNat → s.keyLen.toNat ≤ 160 →
    1 ≤ s.digits.toNat → s.digits.toNat ≤ 9 →
      ∃ t u, exec .totpctr s = .next t ∧ exec .hotp t = .next u ∧ exec .totp s = .next u

/-! ### Housekeeping -/

/-- `NOP` (R154) reports success and changes nothing else: "it is the way to clear a failure code
without touching data". -/
def Obligations.NopOnlyClearsTheStatus : Prop :=
  decode 0x00000000 = .ok .nop ∧
  ∀ s : State, exec .nop s = .next { s with status := .ok } ∧
    ∀ (i : Instr) (t : State), exec i s = .next t → t.status ≠ .ok →
      exec .nop t = .next { s with status := .ok }

/-- `WIPE` (R155): every byte of the text, the key, the digest and the code and their lengths and `TV`
are zero, nothing else changes, and after it `HMAC` and `HOTP`, and `TOTP` with a positive step, fail
with `InvalidKey`. -/
def Obligations.WipeErasesTheSecret : Prop :=
  decode 0x0000001F = .ok .wipe ∧
  ∀ s : State, ∃ t, exec .wipe s = .next t ∧
    t = { s with
      text := t.text, textLen := 0, key := t.key, keyLen := 0, digest := t.digest, tv := 0
      code := t.code, codeLen := 0, status := .ok } ∧
    (∀ i < 256, byteAt t.text i = 0) ∧ (∀ i < 160, byteAt t.key i = 0) ∧
    (∀ i < 20, byteAt t.digest i = 0) ∧ (∀ i < 12, byteAt t.code i = 0) ∧
    exec .hmac t = .next { t with status := .invalidKey } ∧
    exec .hotp t = .next { t with status := .invalidKey } ∧
    (0 < s.timeStep.toInt → exec .totp t = .next { t with status := .invalidKey })

/-! ### Registers only the host changes, and the host's scripts -/

/-- No command changes `DIGITS`, `TIME`, `EPOCH` or `STEP` (R13, R16, R17, R18), none but `WIPE` changes
`TEXT` or `TEXTLEN` (R20), and nothing increments `CTR` (R15, R178): where a step changes one of them,
the event was a host write of that register, reset, or a command that rule allows. The queue is the
model's own (notes/assumptions/1). -/
def Obligations.OperandRegistersChangeOnlyByTheHost : Prop :=
  ∀ s t : State, step s = .next t →
    (t.digits ≠ s.digits → ∃ e rest, s.host = e :: rest ∧
      (e = .reset ∨ ∃ v, e = .write 0x008 4 v ∧ t.digits = v)) ∧
    (t.time ≠ s.time → ∃ e rest, s.host = e :: rest ∧
      (e = .reset ∨ ∃ v, e = .write 0x018 4 v ∨ e = .write 0x01C 4 v)) ∧
    (t.epoch ≠ s.epoch → ∃ e rest, s.host = e :: rest ∧
      (e = .reset ∨ ∃ v, e = .write 0x020 4 v ∨ e = .write 0x024 4 v)) ∧
    (t.timeStep ≠ s.timeStep → ∃ e rest, s.host = e :: rest ∧
      (e = .reset ∨ ∃ v, e = .write 0x028 4 v ∨ e = .write 0x02C 4 v)) ∧
    (t.text ≠ s.text → ∃ e rest, s.host = e :: rest ∧
      (e = .reset ∨ (∃ off v, e = .write off 4 v ∧ 0x100 ≤ off ∧ off < 0x200) ∨
        ∃ w, e = .write 0x000 4 w ∧ decode w = .ok .wipe)) ∧
    (t.textLen ≠ s.textLen → ∃ e rest, s.host = e :: rest ∧
      (e = .reset ∨ (∃ v, e = .write 0x038 4 v ∧ t.textLen = v) ∨
        ∃ w, e = .write 0x000 4 w ∧ decode w = .ok .wipe)) ∧
    (t.ctr ≠ s.ctr → ∃ e rest, s.host = e :: rest ∧
      (e = .reset ∨ (∃ v, e = .write 0x010 4 v ∨ e = .write 0x014 4 v) ∨
        ∃ w, e = .write 0x000 4 w ∧
          (decode w = .ok (.ctrdec 8) ∨ decode w = .ok .totpctr ∨ decode w = .ok .totp)))

/-- `wrtext` (R72) loads the text: after the accesses it stands for, `TEXTLEN` is the text's length,
`TEXT` begins with its characters, the filler bytes of the last word are zero, the rest of `TEXT` is
as before, and so is every other register. The queue of the host is the model's own
(notes/assumptions/1, notes/assumptions/2). -/
def Obligations.WrtextLoadsTheText : Prop :=
  ∀ (s : State) (cs : List Byte), cs.length ≤ 256 → s.host = (ScriptLine.wrtext cs).accesses →
    ∃ t, Host.Core.run Sys2Proof.core s.host.length s = .next t ∧
      t = { s with text := t.text, textLen := t.textLen, host := [], answer := none } ∧
      t.textLen.toNat = cs.length ∧
      (∀ i < cs.length, byteAt t.text i = cs.getD i 0) ∧
      (∀ i, cs.length ≤ i → i < 4 * ((cs.length + 3) / 4) → byteAt t.text i = 0) ∧
      ∀ i, 4 * ((cs.length + 3) / 4) ≤ i → i < 256 → byteAt t.text i = byteAt s.text i

/-- `wrkey` (R72) loads the key in the same way. -/
def Obligations.WrkeyLoadsTheKey : Prop :=
  ∀ (s : State) (bs : List Byte), bs.length ≤ 160 → s.host = (ScriptLine.wrkey bs).accesses →
    ∃ t, Host.Core.run Sys2Proof.core s.host.length s = .next t ∧
      t = { s with key := t.key, keyLen := t.keyLen, host := [], answer := none } ∧
      t.keyLen.toNat = bs.length ∧
      (∀ i < bs.length, byteAt t.key i = bs.getD i 0) ∧
      (∀ i, bs.length ≤ i → i < 4 * ((bs.length + 3) / 4) → byteAt t.key i = 0) ∧
      ∀ i, 4 * ((bs.length + 3) / 4) ≤ i → i < 160 → byteAt t.key i = byteAt s.key i

/-- `wr64`, `wrdigest` and `wrcb` (R72) write their registers whole, and nothing else; a 64-bit
register is two words and takes two accesses (R48). -/
def Obligations.WideWritesSetTheWholeRegister : Prop :=
  ∀ s : State,
    (∀ v : DWord, s.host = (ScriptLine.wr64 .ctr v).accesses →
      Host.Core.run Sys2Proof.core 2 s = .next { s with ctr := v, host := [], answer := none }) ∧
    (∀ v : DWord, s.host = (ScriptLine.wr64 .time v).accesses →
      Host.Core.run Sys2Proof.core 2 s = .next { s with time := v, host := [], answer := none }) ∧
    (∀ v : DWord, s.host = (ScriptLine.wr64 .epoch v).accesses →
      Host.Core.run Sys2Proof.core 2 s = .next { s with epoch := v, host := [], answer := none }) ∧
    (∀ v : DWord, s.host = (ScriptLine.wr64 .step v).accesses →
      Host.Core.run Sys2Proof.core 2 s = .next { s with timeStep := v, host := [], answer := none }) ∧
    (∀ b : Buf 20, s.host = (ScriptLine.wrdigest b).accesses →
      Host.Core.run Sys2Proof.core 5 s = .next { s with digest := b, host := [], answer := none }) ∧
    ∀ b : Buf 8, s.host = (ScriptLine.wrcb b).accesses →
      Host.Core.run Sys2Proof.core 2 s = .next { s with cb := b, host := [], answer := none }
end

