-- ==== Sys2Proof/Laws/State.lean ====
section
/-! SUPPORT. One lemma per field for each named update of the state, true by unfolding, so that no
later proof unfolds a record update. -/

namespace Sys2Proof.Machine

/-! ### `State.raise` -/

@[simp] theorem State.raise_status (s : State) (k : Status) :
    (s.raise k).status = k := rfl
@[simp] theorem State.raise_digits (s : State) (k : Status) :
    (s.raise k).digits = s.digits := rfl
@[simp] theorem State.raise_tv (s : State) (k : Status) :
    (s.raise k).tv = s.tv := rfl
@[simp] theorem State.raise_ctr (s : State) (k : Status) :
    (s.raise k).ctr = s.ctr := rfl
@[simp] theorem State.raise_time (s : State) (k : Status) :
    (s.raise k).time = s.time := rfl
@[simp] theorem State.raise_epoch (s : State) (k : Status) :
    (s.raise k).epoch = s.epoch := rfl
@[simp] theorem State.raise_timeStep (s : State) (k : Status) :
    (s.raise k).timeStep = s.timeStep := rfl
@[simp] theorem State.raise_textLen (s : State) (k : Status) :
    (s.raise k).textLen = s.textLen := rfl
@[simp] theorem State.raise_keyLen (s : State) (k : Status) :
    (s.raise k).keyLen = s.keyLen := rfl
@[simp] theorem State.raise_codeLen (s : State) (k : Status) :
    (s.raise k).codeLen = s.codeLen := rfl
@[simp] theorem State.raise_cb (s : State) (k : Status) :
    (s.raise k).cb = s.cb := rfl
@[simp] theorem State.raise_digest (s : State) (k : Status) :
    (s.raise k).digest = s.digest := rfl
@[simp] theorem State.raise_code (s : State) (k : Status) :
    (s.raise k).code = s.code := rfl
@[simp] theorem State.raise_text (s : State) (k : Status) :
    (s.raise k).text = s.text := rfl
@[simp] theorem State.raise_key (s : State) (k : Status) :
    (s.raise k).key = s.key := rfl
@[simp] theorem State.raise_host (s : State) (k : Status) :
    (s.raise k).host = s.host := rfl
@[simp] theorem State.raise_answer (s : State) (k : Status) :
    (s.raise k).answer = s.answer := rfl

/-! ### `State.succeed` -/

@[simp] theorem State.succeed_status (s : State) :
    (s.succeed).status = .ok := rfl
@[simp] theorem State.succeed_digits (s : State) :
    (s.succeed).digits = s.digits := rfl
@[simp] theorem State.succeed_tv (s : State) :
    (s.succeed).tv = s.tv := rfl
@[simp] theorem State.succeed_ctr (s : State) :
    (s.succeed).ctr = s.ctr := rfl
@[simp] theorem State.succeed_time (s : State) :
    (s.succeed).time = s.time := rfl
@[simp] theorem State.succeed_epoch (s : State) :
    (s.succeed).epoch = s.epoch := rfl
@[simp] theorem State.succeed_timeStep (s : State) :
    (s.succeed).timeStep = s.timeStep := rfl
@[simp] theorem State.succeed_textLen (s : State) :
    (s.succeed).textLen = s.textLen := rfl
@[simp] theorem State.succeed_keyLen (s : State) :
    (s.succeed).keyLen = s.keyLen := rfl
@[simp] theorem State.succeed_codeLen (s : State) :
    (s.succeed).codeLen = s.codeLen := rfl
@[simp] theorem State.succeed_cb (s : State) :
    (s.succeed).cb = s.cb := rfl
@[simp] theorem State.succeed_digest (s : State) :
    (s.succeed).digest = s.digest := rfl
@[simp] theorem State.succeed_code (s : State) :
    (s.succeed).code = s.code := rfl
@[simp] theorem State.succeed_text (s : State) :
    (s.succeed).text = s.text := rfl
@[simp] theorem State.succeed_key (s : State) :
    (s.succeed).key = s.key := rfl
@[simp] theorem State.succeed_host (s : State) :
    (s.succeed).host = s.host := rfl
@[simp] theorem State.succeed_answer (s : State) :
    (s.succeed).answer = s.answer := rfl

/-! ### `State.loadKey` -/

@[simp] theorem State.loadKey_status (s : State) (out : List Byte) :
    (s.loadKey out).status = s.status := rfl
@[simp] theorem State.loadKey_digits (s : State) (out : List Byte) :
    (s.loadKey out).digits = s.digits := rfl
@[simp] theorem State.loadKey_tv (s : State) (out : List Byte) :
    (s.loadKey out).tv = s.tv := rfl
@[simp] theorem State.loadKey_ctr (s : State) (out : List Byte) :
    (s.loadKey out).ctr = s.ctr := rfl
@[simp] theorem State.loadKey_time (s : State) (out : List Byte) :
    (s.loadKey out).time = s.time := rfl
@[simp] theorem State.loadKey_epoch (s : State) (out : List Byte) :
    (s.loadKey out).epoch = s.epoch := rfl
@[simp] theorem State.loadKey_timeStep (s : State) (out : List Byte) :
    (s.loadKey out).timeStep = s.timeStep := rfl
@[simp] theorem State.loadKey_textLen (s : State) (out : List Byte) :
    (s.loadKey out).textLen = s.textLen := rfl
@[simp] theorem State.loadKey_keyLen (s : State) (out : List Byte) :
    (s.loadKey out).keyLen = BitVec.ofNat 32 out.length := rfl
@[simp] theorem State.loadKey_codeLen (s : State) (out : List Byte) :
    (s.loadKey out).codeLen = s.codeLen := rfl
@[simp] theorem State.loadKey_cb (s : State) (out : List Byte) :
    (s.loadKey out).cb = s.cb := rfl
@[simp] theorem State.loadKey_digest (s : State) (out : List Byte) :
    (s.loadKey out).digest = s.digest := rfl
@[simp] theorem State.loadKey_code (s : State) (out : List Byte) :
    (s.loadKey out).code = s.code := rfl
@[simp] theorem State.loadKey_text (s : State) (out : List Byte) :
    (s.loadKey out).text = s.text := rfl
@[simp] theorem State.loadKey_key (s : State) (out : List Byte) :
    (s.loadKey out).key = fillBuf Config.keyMax out := rfl
@[simp] theorem State.loadKey_host (s : State) (out : List Byte) :
    (s.loadKey out).host = s.host := rfl
@[simp] theorem State.loadKey_answer (s : State) (out : List Byte) :
    (s.loadKey out).answer = s.answer := rfl

/-! ### `State.loadCode` -/

@[simp] theorem State.loadCode_status (s : State) (str : List Byte) :
    (s.loadCode str).status = s.status := rfl
@[simp] theorem State.loadCode_digits (s : State) (str : List Byte) :
    (s.loadCode str).digits = s.digits := rfl
@[simp] theorem State.loadCode_tv (s : State) (str : List Byte) :
    (s.loadCode str).tv = s.tv := rfl
@[simp] theorem State.loadCode_ctr (s : State) (str : List Byte) :
    (s.loadCode str).ctr = s.ctr := rfl
@[simp] theorem State.loadCode_time (s : State) (str : List Byte) :
    (s.loadCode str).time = s.time := rfl
@[simp] theorem State.loadCode_epoch (s : State) (str : List Byte) :
    (s.loadCode str).epoch = s.epoch := rfl
@[simp] theorem State.loadCode_timeStep (s : State) (str : List Byte) :
    (s.loadCode str).timeStep = s.timeStep := rfl
@[simp] theorem State.loadCode_textLen (s : State) (str : List Byte) :
    (s.loadCode str).textLen = s.textLen := rfl
@[simp] theorem State.loadCode_keyLen (s : State) (str : List Byte) :
    (s.loadCode str).keyLen = s.keyLen := rfl
@[simp] theorem State.loadCode_codeLen (s : State) (str : List Byte) :
    (s.loadCode str).codeLen = BitVec.ofNat 32 str.length := rfl
@[simp] theorem State.loadCode_cb (s : State) (str : List Byte) :
    (s.loadCode str).cb = s.cb := rfl
@[simp] theorem State.loadCode_digest (s : State) (str : List Byte) :
    (s.loadCode str).digest = s.digest := rfl
@[simp] theorem State.loadCode_code (s : State) (str : List Byte) :
    (s.loadCode str).code = fillBuf Config.codeMax str := rfl
@[simp] theorem State.loadCode_text (s : State) (str : List Byte) :
    (s.loadCode str).text = s.text := rfl
@[simp] theorem State.loadCode_key (s : State) (str : List Byte) :
    (s.loadCode str).key = s.key := rfl
@[simp] theorem State.loadCode_host (s : State) (str : List Byte) :
    (s.loadCode str).host = s.host := rfl
@[simp] theorem State.loadCode_answer (s : State) (str : List Byte) :
    (s.loadCode str).answer = s.answer := rfl

/-! ### `State.wiped` -/

@[simp] theorem State.wiped_status (s : State) :
    (s.wiped).status = s.status := rfl
@[simp] theorem State.wiped_digits (s : State) :
    (s.wiped).digits = s.digits := rfl
@[simp] theorem State.wiped_tv (s : State) :
    (s.wiped).tv = 0 := rfl
@[simp] theorem State.wiped_ctr (s : State) :
    (s.wiped).ctr = s.ctr := rfl
@[simp] theorem State.wiped_time (s : State) :
    (s.wiped).time = s.time := rfl
@[simp] theorem State.wiped_epoch (s : State) :
    (s.wiped).epoch = s.epoch := rfl
@[simp] theorem State.wiped_timeStep (s : State) :
    (s.wiped).timeStep = s.timeStep := rfl
@[simp] theorem State.wiped_textLen (s : State) :
    (s.wiped).textLen = 0 := rfl
@[simp] theorem State.wiped_keyLen (s : State) :
    (s.wiped).keyLen = 0 := rfl
@[simp] theorem State.wiped_codeLen (s : State) :
    (s.wiped).codeLen = 0 := rfl
@[simp] theorem State.wiped_cb (s : State) :
    (s.wiped).cb = s.cb := rfl
@[simp] theorem State.wiped_digest (s : State) :
    (s.wiped).digest = fillBuf 20 [] := rfl
@[simp] theorem State.wiped_code (s : State) :
    (s.wiped).code = fillBuf Config.codeMax [] := rfl
@[simp] theorem State.wiped_text (s : State) :
    (s.wiped).text = fillBuf Config.textMax [] := rfl
@[simp] theorem State.wiped_key (s : State) :
    (s.wiped).key = fillBuf Config.keyMax [] := rfl
@[simp] theorem State.wiped_host (s : State) :
    (s.wiped).host = s.host := rfl
@[simp] theorem State.wiped_answer (s : State) :
    (s.wiped).answer = s.answer := rfl

/-! ### `State.withFetchWord` -/

@[simp] theorem State.withFetchWord_status (s : State) (nbits w : Nat) :
    (s.withFetchWord nbits w).status = s.status := rfl
@[simp] theorem State.withFetchWord_digits (s : State) (nbits w : Nat) :
    (s.withFetchWord nbits w).digits = s.digits := rfl
@[simp] theorem State.withFetchWord_tv (s : State) (nbits w : Nat) :
    (s.withFetchWord nbits w).tv = s.tv := rfl
@[simp] theorem State.withFetchWord_ctr (s : State) (nbits w : Nat) :
    (s.withFetchWord nbits w).ctr = s.ctr := rfl
@[simp] theorem State.withFetchWord_time (s : State) (nbits w : Nat) :
    (s.withFetchWord nbits w).time = s.time := rfl
@[simp] theorem State.withFetchWord_epoch (s : State) (nbits w : Nat) :
    (s.withFetchWord nbits w).epoch = s.epoch := rfl
@[simp] theorem State.withFetchWord_timeStep (s : State) (nbits w : Nat) :
    (s.withFetchWord nbits w).timeStep = s.timeStep := rfl
@[simp] theorem State.withFetchWord_textLen (s : State) (nbits w : Nat) :
    (s.withFetchWord nbits w).textLen = s.textLen := rfl
@[simp] theorem State.withFetchWord_keyLen (s : State) (nbits w : Nat) :
    (s.withFetchWord nbits w).keyLen = s.keyLen := rfl
@[simp] theorem State.withFetchWord_codeLen (s : State) (nbits w : Nat) :
    (s.withFetchWord nbits w).codeLen = s.codeLen := rfl
@[simp] theorem State.withFetchWord_cb (s : State) (nbits w : Nat) :
    (s.withFetchWord nbits w).cb = s.cb := rfl
@[simp] theorem State.withFetchWord_digest (s : State) (nbits w : Nat) :
    (s.withFetchWord nbits w).digest = s.digest := rfl
@[simp] theorem State.withFetchWord_code (s : State) (nbits w : Nat) :
    (s.withFetchWord nbits w).code = s.code := rfl
@[simp] theorem State.withFetchWord_text (s : State) (nbits w : Nat) :
    (s.withFetchWord nbits w).text = s.text := rfl
@[simp] theorem State.withFetchWord_key (s : State) (nbits w : Nat) :
    (s.withFetchWord nbits w).key = s.key := rfl
@[simp] theorem State.withFetchWord_host (s : State) (nbits w : Nat) :
    (s.withFetchWord nbits w).host = .write (offsetOf .cmd) 4 (BitVec.ofNat 32 (w % 2 ^ nbits)) :: s.host := rfl
@[simp] theorem State.withFetchWord_answer (s : State) (nbits w : Nat) :
    (s.withFetchWord nbits w).answer = s.answer := rfl

end Sys2Proof.Machine
end

