-- ==== Sys2Proof/Laws/Ops.lean ====
section
/-! SUPPORT. What each shared operation can do, said once: how a command ends, the buffers, and the
halves of a 64-bit register. -/

namespace Sys2Proof.Machine

/-! ### How a command ends -/

@[simp] theorem conclude_error (s : State) (k : Status) :
    conclude s (.error k) = .next (s.raise k) := rfl

@[simp] theorem conclude_ok (s t : State) : conclude s (.ok t) = .next t.succeed := rfl

/-- A command ends in a next state, and in one of two ways. -/
theorem conclude_next {s t : State} {r : Except Status State} (h : conclude s r = .next t) :
    (∃ k, r = .error k ∧ t = s.raise k) ∨ ∃ u, r = .ok u ∧ t = u.succeed := by
  cases r with
  | error k => exact .inl ⟨k, rfl, by simpa using h.symm⟩
  | ok u => exact .inr ⟨u, rfl, by simpa using h.symm⟩

@[simp] theorem failIf_true (k : Status) : failIf true k = .error k := rfl

@[simp] theorem failIf_false (k : Status) : failIf false k = .ok () := rfl

/-- A check that does not pass gives its own code and no other. -/
theorem failIf_error {bad : Bool} {k k' : Status} (h : failIf bad k = .error k') :
    bad = true ∧ k' = k := by
  cases bad <;> simp_all

@[simp] theorem error_bind {α β : Type} (k : Status) (f : α → Except Status β) :
    ((Except.error k : Except Status α) >>= f) = .error k := rfl

@[simp] theorem ok_bind {α β : Type} (a : α) (f : α → Except Status β) :
    ((Except.ok a : Except Status α) >>= f) = f a := rfl

@[simp] theorem pure_eq_ok {α : Type} (a : α) : (pure a : Except Status α) = .ok a := rfl

/-- A sequence of a check and the rest succeeds when both do. -/
theorem bind_eq_ok {α β : Type} {x : Except Status α} {f : α → Except Status β} {b : β} :
    (x >>= f) = .ok b ↔ ∃ a, x = .ok a ∧ f a = .ok b := by
  cases x <;> simp

/-- A sequence of a check and the rest fails with the first code to come up (R173). -/
theorem bind_eq_error {α β : Type} {x : Except Status α} {f : α → Except Status β} {k : Status} :
    (x >>= f) = .error k ↔ x = .error k ∨ ∃ a, x = .ok a ∧ f a = .error k := by
  cases x <;> simp

/-! ### Byte buffers -/

theorem byteAt_of_lt {n : Nat} (b : Buf n) {i : Nat} (h : i < n) : byteAt b i = b[i] := by
  simp [byteAt, List.getD_eq_getElem?_getD, h]

theorem byteAt_of_ge {n : Nat} (b : Buf n) {i : Nat} (h : n ≤ i) : byteAt b i = 0 := by
  simp [byteAt, List.getD_eq_getElem?_getD, h]

/-- Every byte of a zero buffer, and past its end, is zero. -/
@[simp] theorem byteAt_replicate_zero (n i : Nat) : byteAt (Vector.replicate n (0 : Byte)) i = 0 := by
  by_cases h : i < n
  · simp [byteAt_of_lt, h]
  · exact byteAt_of_ge _ (by omega)

/-- Two buffers with the same bytes are the same. -/
theorem buf_ext {n : Nat} {b c : Buf n} (h : ∀ i < n, byteAt b i = byteAt c i) : b = c := by
  ext i hi : 1
  simpa [byteAt_of_lt, hi] using h i hi

theorem toList_fillBuf (n : Nat) (bs : List Byte) :
    (fillBuf n bs).toList = (bs ++ List.replicate n 0).take n := rfl

theorem toList_fillBuf_of_length {n : Nat} {bs : List Byte} (h : bs.length = n) :
    (fillBuf n bs).toList = bs := by
  rw [toList_fillBuf, ← h, List.take_left]

@[simp] theorem byteAt_fillBuf (n : Nat) (bs : List Byte) (i : Nat) :
    byteAt (fillBuf n bs) i = if i < n then bs.getD i 0 else 0 := by
  rw [byteAt, toList_fillBuf]
  by_cases h : i < n
  · by_cases hb : i < bs.length
    · simp [List.getD_eq_getElem?_getD, h, hb]
    · have : i - bs.length < n := by omega
      rw [List.getD_eq_getElem?_getD, List.getElem?_take_of_lt h, List.getElem?_append_right (by omega)]
      simp [this, h, hb]
  · simp [List.getD_eq_getElem?_getD, h]

theorem length_firstBytes {n : Nat} (b : Buf n) (len : Nat) :
    (firstBytes b len).length = min len n := by
  simp [firstBytes]

theorem getD_firstBytes {n : Nat} (b : Buf n) (len i : Nat) :
    (firstBytes b len).getD i 0 = if i < len then byteAt b i else 0 := by
  by_cases h : i < len <;>
    simp [firstBytes, byteAt, List.getD_eq_getElem?_getD, h]

@[simp] theorem length_bytesBE (v n : Nat) : (bytesBE v n).length = n := by simp [bytesBE]

theorem getD_bytesBE (v n : Nat) {i : Nat} (h : i < n) :
    (bytesBE v n).getD i 0 = BitVec.ofNat 8 (v >>> (8 * (n - 1 - i))) := by
  simp [bytesBE, List.getD_eq_getElem?_getD, h]

/-! ### Words of a buffer -/

/-- Concatenation as a number: the left part is the more significant (R7). -/
theorem toNat_append {m n : Nat} (x : BitVec m) (y : BitVec n) :
    (x ++ y).toNat = x.toNat * 2 ^ n + y.toNat := by
  rw [BitVec.toNat_append, ← Nat.shiftLeft_add_eq_or_of_lt y.isLt, Nat.shiftLeft_eq]

theorem toNat_be32 (b0 b1 b2 b3 : Byte) :
    (be32 b0 b1 b2 b3).toNat =
      b0.toNat * 2 ^ 24 + b1.toNat * 2 ^ 16 + b2.toNat * 2 ^ 8 + b3.toNat := by
  unfold be32
  simp only [toNat_append]
  omega

theorem toNat_wordByte (v : Word) (j : Nat) :
    (wordByte v j).toNat = v.toNat / 2 ^ (24 - 8 * j) % 256 := by
  simp [wordByte, Nat.shiftRight_eq_div_pow]

/-- The four bytes of a word, put together again, are the word (R44). -/
@[simp] theorem be32_wordByte (v : Word) :
    be32 (wordByte v 0) (wordByte v 1) (wordByte v 2) (wordByte v 3) = v := by
  apply BitVec.eq_of_toNat_eq
  simp only [toNat_be32, toNat_wordByte]
  have := v.isLt
  omega

/-- The bytes of a word put together from bytes. -/
theorem wordByte_be32 (b0 b1 b2 b3 : Byte) :
    wordByte (be32 b0 b1 b2 b3) 0 = b0 ∧ wordByte (be32 b0 b1 b2 b3) 1 = b1 ∧
      wordByte (be32 b0 b1 b2 b3) 2 = b2 ∧ wordByte (be32 b0 b1 b2 b3) 3 = b3 := by
  have h0 := b0.isLt
  have h1 := b1.isLt
  have h2 := b2.isLt
  have h3 := b3.isLt
  refine ⟨?_, ?_, ?_, ?_⟩ <;> apply BitVec.eq_of_toNat_eq <;>
    simp only [toNat_be32, toNat_wordByte] <;> omega

theorem byteAt_setIfInBounds {n : Nat} (b : Buf n) (i j : Nat) (v : Byte) :
    byteAt (b.setIfInBounds i v) j = if i = j ∧ j < n then v else byteAt b j := by
  by_cases hj : j < n
  · simp [byteAt_of_lt, hj, Vector.getElem_setIfInBounds]
  · simp [byteAt_of_ge, Nat.le_of_not_lt hj, hj]

/-- A write of word `w` sets the four bytes `4w .. 4w+3` and no other (R43). -/
theorem byteAt_setBufWord {n : Nat} (b : Buf n) (w : Nat) (v : Word) (i : Nat) :
    byteAt (setBufWord b w v) i = if i / 4 = w ∧ i < n then wordByte v (i % 4) else byteAt b i := by
  unfold setBufWord
  simp only [byteAt_setIfInBounds]
  by_cases hi : i < n
  · by_cases hw : i / 4 = w
    · have : i % 4 = 0 ∨ i % 4 = 1 ∨ i % 4 = 2 ∨ i % 4 = 3 := by omega
      rcases this with h | h | h | h <;> simp only [h, hi, hw, and_true, and_self, if_true] <;>
        repeat (first | rw [if_pos (by omega)] | rw [if_neg (by omega)])
    · simp only [hi, hw, and_true, if_false]
      repeat rw [if_neg (by omega)]
  · simp [hi]

/-- A word written is read back. -/
theorem bufWord_setBufWord_same {n : Nat} (b : Buf n) {w : Nat} (v : Word) (h : 4 * w + 3 < n) :
    bufWord (setBufWord b w v) w = v := by
  unfold bufWord
  simp only [byteAt_setBufWord]
  rw [if_pos (by omega), if_pos (by omega), if_pos (by omega), if_pos (by omega)]
  have h0 : 4 * w % 4 = 0 := by omega
  have h1 : (4 * w + 1) % 4 = 1 := by omega
  have h2 : (4 * w + 2) % 4 = 2 := by omega
  have h3 : (4 * w + 3) % 4 = 3 := by omega
  rw [h0, h1, h2, h3, be32_wordByte]

/-- A word written leaves the other words alone. -/
theorem bufWord_setBufWord_other {n : Nat} (b : Buf n) {w w' : Nat} (v : Word) (h : w' ≠ w) :
    bufWord (setBufWord b w v) w' = bufWord b w' := by
  unfold bufWord
  simp only [byteAt_setBufWord]
  repeat rw [if_neg (by omega)]

/-! ### The halves of a 64-bit register -/

theorem toNat_highWord (d : DWord) : (highWord d).toNat = d.toNat / 2 ^ 32 := by
  have := d.isLt
  simp only [highWord, BitVec.extractLsb'_toNat, Nat.shiftRight_eq_div_pow]
  omega

theorem toNat_lowWord (d : DWord) : (lowWord d).toNat = d.toNat % 2 ^ 32 := by
  simp [lowWord]

theorem toNat_setHighWord (d : DWord) (v : Word) :
    (setHighWord d v).toNat = v.toNat * 2 ^ 32 + d.toNat % 2 ^ 32 := by
  unfold setHighWord
  rw [toNat_append, toNat_lowWord]

theorem toNat_setLowWord (d : DWord) (v : Word) :
    (setLowWord d v).toNat = d.toNat / 2 ^ 32 * 2 ^ 32 + v.toNat := by
  unfold setLowWord
  rw [toNat_append, toNat_highWord]

@[simp] theorem highWord_setHighWord (d : DWord) (v : Word) : highWord (setHighWord d v) = v := by
  apply BitVec.eq_of_toNat_eq
  rw [toNat_highWord, toNat_setHighWord]
  omega

@[simp] theorem lowWord_setHighWord (d : DWord) (v : Word) :
    lowWord (setHighWord d v) = lowWord d := by
  apply BitVec.eq_of_toNat_eq
  rw [toNat_lowWord, toNat_lowWord, toNat_setHighWord]
  omega

@[simp] theorem lowWord_setLowWord (d : DWord) (v : Word) : lowWord (setLowWord d v) = v := by
  apply BitVec.eq_of_toNat_eq
  rw [toNat_lowWord, toNat_setLowWord]
  omega

@[simp] theorem highWord_setLowWord (d : DWord) (v : Word) :
    highWord (setLowWord d v) = highWord d := by
  apply BitVec.eq_of_toNat_eq
  rw [toNat_highWord, toNat_highWord, toNat_setLowWord]
  omega

/-- The two halves are the whole register (R48). -/
theorem dword_ext {d e : DWord} (hi : highWord d = highWord e) (lo : lowWord d = lowWord e) :
    d = e := by
  apply BitVec.eq_of_toNat_eq
  have h1 := congrArg BitVec.toNat hi
  have h2 := congrArg BitVec.toNat lo
  rw [toNat_highWord, toNat_highWord] at h1
  rw [toNat_lowWord, toNat_lowWord] at h2
  omega

end Sys2Proof.Machine
end

