-- ==== Sys2Proof/Laws/Commands.lean ====
section
/-! SUPPORT. Everything the commands that can fail do, said once for each: the checks of its rule as a
chain of conditions, and its results where none holds. -/

namespace Sys2Proof.Machine

/-! ### The checks -/

/-- A check as the condition it tests. -/
theorem failIf_decide (p : Prop) [Decidable p] (k : Status) :
    failIf (decide p) k = if p then .error k else .ok () := by
  by_cases h : p <;> simp [h]

/-- What follows a check happens where its condition is false. -/
theorem ite_error_bind {α β : Type} (p : Prop) [Decidable p] (k : Status) (x : Except Status α)
    (f : α → Except Status β) :
    ((if p then Except.error k else x) >>= f) = if p then .error k else x >>= f := by
  by_cases h : p <;> simp [h]

theorem checkTextCapacity_eq (s : State) :
    checkTextCapacity s = if 256 < s.textLen.toNat then .error .capacityExceeded else .ok () :=
  failIf_decide _ _

theorem checkKeyCapacity_eq (s : State) :
    checkKeyCapacity s = if 160 < s.keyLen.toNat then .error .capacityExceeded else .ok () :=
  failIf_decide _ _

theorem checkKeyPresent_eq (s : State) :
    checkKeyPresent s = if s.keyLen.toNat = 0 then .error .invalidKey else .ok () :=
  failIf_decide _ _

theorem checkDigits_eq (s : State) :
    checkDigits s =
      if s.digits.toNat < 1 ∨ 9 < s.digits.toNat then .error .invalidDigits else .ok () := by
  rw [checkDigits, ← Bool.decide_or, failIf_decide]

theorem checkTimeStep_eq (s : State) :
    checkTimeStep s = if s.timeStep.toInt ≤ 0 then .error .invalidTimeStep else .ok () :=
  failIf_decide _ _

theorem checkDecoded_eq (out : List Byte) :
    checkDecoded out = if out.length = 0 then .error .invalidKey else .ok () :=
  failIf_decide _ _

/-! ### The commands -/

theorem decb32_eq (s : State) :
    decb32 s =
      if 256 < s.textLen.toNat then .error .capacityExceeded
      else valuesOf b32val s.textChars >>= fun vs =>
        if (b32decode vs).length = 0 then .error .invalidKey else .ok (s.loadKey (b32decode vs)) := by
  simp only [decb32, checkTextCapacity_eq, checkDecoded_eq, ite_error_bind, ok_bind, pure_eq_ok]

theorem dechex_eq (s : State) :
    dechex s =
      if 256 < s.textLen.toNat then .error .capacityExceeded
      else if s.textLen.toNat % 2 = 1 then .error .invalidFormat
      else valuesOf hexval s.textChars >>= fun hs =>
        if (hexPairs hs).length = 0 then .error .invalidKey else .ok (s.loadKey (hexPairs hs)) := by
  simp only [dechex, checkTextCapacity_eq, checkDecoded_eq, failIf_decide, ite_error_bind, ok_bind,
    pure_eq_ok]

theorem ctrdec_eq (n : Nat) (s : State) :
    ctrdec n s = if n ≠ 8 then .error .invalidLength else .ok { s with ctr := ctrDecode s.cb } := by
  simp only [ctrdec, failIf_decide, ite_error_bind, ok_bind, pure_eq_ok]

theorem hmac_eq (s : State) :
    hmac s =
      if 160 < s.keyLen.toNat then .error .capacityExceeded
      else if s.keyLen.toNat = 0 then .error .invalidKey
      else .ok { s with digest := hmacSha1 s.keyBytes s.cb.toList } := by
  simp only [hmac, checkKeyCapacity_eq, checkKeyPresent_eq, ite_error_bind, ok_bind, pure_eq_ok]

theorem format_eq (s : State) :
    format s =
      if s.digits.toNat < 1 ∨ 9 < s.digits.toNat then .error .invalidDigits
      else .ok (s.loadCode (decFormat s.tv s.digits.toNat)) := by
  simp only [format, checkDigits_eq, ite_error_bind, ok_bind, pure_eq_ok]

theorem totpctr_eq (s : State) :
    totpctr s =
      if s.timeStep.toInt ≤ 0 then .error .invalidTimeStep
      else .ok { s with ctr := s.timeCounter } := by
  simp only [totpctr, checkTimeStep_eq, ite_error_bind, ok_bind, pure_eq_ok]

theorem hotpCompute_eq (c : DWord) (s : State) :
    hotpCompute c s =
      if 160 < s.keyLen.toNat then .error .capacityExceeded
      else if s.keyLen.toNat = 0 then .error .invalidKey
      else if s.digits.toNat < 1 ∨ 9 < s.digits.toNat then .error .invalidDigits
      else
        let hs := hmacSha1 s.keyBytes (ctrEncode c).toList
        .ok (({ s with cb := ctrEncode c, digest := hs, tv := dynTrunc hs }).loadCode
          (decFormat (dynTrunc hs) s.digits.toNat)) := by
  simp only [hotpCompute, checkKeyCapacity_eq, checkKeyPresent_eq, checkDigits_eq, ite_error_bind,
    ok_bind, pure_eq_ok]

theorem totp_eq (s : State) :
    totp s =
      if s.timeStep.toInt ≤ 0 then .error .invalidTimeStep
      else hotpCompute s.timeCounter s >>= fun t => .ok { t with ctr := s.timeCounter } := by
  simp only [totp, checkTimeStep_eq, ite_error_bind, ok_bind, pure_eq_ok]

/-! ### The units -/

/-- A text with a character that has no value fails, wherever the character stands. -/
theorem valuesOf_eq_error {α : Type} (val : Byte → Option α) {l : List Byte} {c : Byte} (hc : c ∈ l)
    (h : val c = none) : valuesOf val l = .error .invalidFormat := by
  induction l with
  | nil => cases hc
  | cons x xs ih =>
    rcases List.mem_cons.1 hc with rfl | hm
    · simp [valuesOf, h]
    · cases hx : val x <;> simp [valuesOf, hx, ih hm]

/-- A text all of whose characters have values gives them in order. -/
theorem valuesOf_eq_ok {α : Type} (val : Byte → Option α) {l : List Byte} {vs : List α} :
    valuesOf val l = .ok vs ↔ l.map val = vs.map some := by
  induction l generalizing vs with
  | nil => cases vs <;> simp [valuesOf]
  | cons x xs ih =>
    cases vs with
    | nil => cases hx : val x <;> cases hv : valuesOf val xs <;> simp [valuesOf, hx, hv]
    | cons v vs =>
      cases hx : val x with
      | none => simp [valuesOf, hx]
      | some y =>
        cases hv : valuesOf val xs with
        | error k =>
          have : ¬ xs.map val = vs.map some := fun h => by simp [ih.2 h] at hv
          simp [valuesOf, hx, hv, this]
        | ok ws =>
          have := @ih vs
          rw [hv] at this
          simp [valuesOf, hx, hv, ← this]

/-- The only failure of a text is a character without a value. -/
theorem valuesOf_error {α : Type} {val : Byte → Option α} {l : List Byte} {k : Status}
    (h : valuesOf val l = .error k) : k = .invalidFormat ∧ ∃ c ∈ l, val c = none := by
  induction l with
  | nil => cases h
  | cons x xs ih =>
    cases hx : val x with
    | none => exact ⟨by simpa [valuesOf, hx] using h.symm, x, by simp, hx⟩
    | some y =>
      cases hv : valuesOf val xs with
      | error k' =>
        obtain rfl : k' = k := by simpa [valuesOf, hx, hv] using h
        obtain ⟨hk, c, hc, hn⟩ := ih hv
        exact ⟨hk, c, by simp [hc], hn⟩
      | ok ws => simp [valuesOf, hx, hv] at h

@[simp] theorem length_decFormat (p : BitVec 31) (n : Nat) : (decFormat p n).length = n := by
  simp [decFormat]

/-- Byte `i` of an encoded counter (R100). -/
theorem byteAt_ctrEncode (c : DWord) {i : Nat} (h : i < 8) :
    byteAt (ctrEncode c) i = c.extractLsb' (56 - 8 * i) 8 := by
  rw [ctrEncode, byteAt_fillBuf, if_pos h, getD_bytesBE _ _ h]
  apply BitVec.eq_of_toNat_eq
  simp [show 8 * (8 - 1 - i) = 56 - 8 * i by omega]

end Sys2Proof.Machine
end

