-- ==== Sys2Proof/Laws/PerInstr.lean ====
section
/-! SUPPORT. Facts about every instruction as syntax, one lemma per constructor. -/

/-- The two fields of a command word that no operand reaches: `RSV` is zero and `OP` is the command's
opcode, whatever the operand (spec/30_encoding.md R60 to R62). -/
def Sys2Proof.Laws.FixedFields.Statement (i : Sys2Proof.Instr) : Prop :=
  Sys2Proof.rsvField (Sys2Proof.encode i) = 0 ∧
    Sys2Proof.opField (Sys2Proof.encode i) = Sys2Proof.opcodeOf i

namespace Sys2Proof.Laws.FixedFields

theorem nop : Statement .nop := by unfold Statement; decide
theorem decb32 : Statement .decb32 := by unfold Statement; decide
theorem dechex : Statement .dechex := by unfold Statement; decide
theorem ctrenc : Statement .ctrenc := by unfold Statement; decide
theorem ctrdec (n : Nat) : Statement (.ctrdec n) := by
  have fixed : ∀ imm : BitVec 8,
      rsvField ((0 : BitVec 16) ++ imm ++ (0x04 : BitVec 8)) = 0 ∧
        opField ((0 : BitVec 16) ++ imm ++ (0x04 : BitVec 8)) = 0x04 := by decide
  exact fixed (BitVec.ofNat 8 n)
theorem hmac : Statement .hmac := by unfold Statement; decide
theorem trunc : Statement .trunc := by unfold Statement; decide
theorem format : Statement .format := by unfold Statement; decide
theorem totpctr : Statement .totpctr := by unfold Statement; decide
theorem hotp : Statement .hotp := by unfold Statement; decide
theorem totp : Statement .totp := by unfold Statement; decide
theorem wipe : Statement .wipe := by unfold Statement; decide

end Sys2Proof.Laws.FixedFields
end

