-- ==== Sys2Proof/Laws/RegisterSpace.lean ====
section
/-! SUPPORT. The register map and its accesses: which offset names which word, and what a word reads
as after a write of the same word or of another. -/

namespace Sys2Proof.Machine

/-- The map finds every word at its offset (R45). -/
@[simp] theorem regAt_offsetOf (r : Reg) : regAt (offsetOf r) = some r := by
  cases r with
  | cb w => revert w; decide
  | digest w => revert w; decide
  | code w => revert w; decide
  | text w =>
    have := w.isLt
    unfold regAt offsetOf
    simp only
    rw [dif_neg (by omega), dif_neg (by omega), dif_neg (by omega), dif_pos (by omega)]
    congr
    omega
  | key w =>
    have := w.isLt
    unfold regAt offsetOf
    simp only
    rw [dif_neg (by omega), dif_neg (by omega), dif_neg (by omega), dif_neg (by omega),
      dif_pos (by omega)]
    congr
    omega
  | _ => decide

/-- Two words stand at two offsets (R30). -/
theorem offsetOf_inj {r r' : Reg} (h : offsetOf r = offsetOf r') : r = r' := by
  have := regAt_offsetOf r
  rw [h, regAt_offsetOf] at this
  exact (Option.some.inj this).symm

/-- Where the map finds a word at an aligned offset, that is the word's offset (R45). -/
theorem offsetOf_of_regAt {off : Nat} {r : Reg} (ha : off % 4 = 0) (h : regAt off = some r) :
    offsetOf r = off := by
  unfold regAt at h
  split at h
  · cases h; simp only [offsetOf]; omega
  split at h
  · cases h; simp only [offsetOf]; omega
  split at h
  · cases h; simp only [offsetOf]; omega
  split at h
  · cases h; simp only [offsetOf]; omega
  split at h
  · cases h; simp only [offsetOf]; omega
  · obtain ⟨l, l', hmap, -⟩ := List.lookup_eq_some_iff.1 h
    have hmem : (off, r) ∈ scalarMap := by rw [hmap]; simp
    have all : ∀ p ∈ scalarMap, offsetOf p.2 = p.1 := by decide
    exact all _ hmem

/-- A word of the map is read at its offset. -/
@[simp] theorem readOffset_offsetOf (s : State) (r : Reg) : readOffset s (offsetOf r) = readReg s r := by
  simp [readOffset]

/-- A word of the map is written at its offset. -/
@[simp] theorem writeOffset_offsetOf (s : State) (r : Reg) (v : Word) :
    writeOffset s (offsetOf r) v = writeReg s r v := by
  simp [writeOffset]

/-- A reserved offset reads as zero (R46). -/
theorem readOffset_reserved (s : State) {off : Nat} (h : regAt off = none) : readOffset s off = 0 := by
  simp [readOffset, h]

/-- A write to a reserved offset is ignored (R46). -/
theorem writeOffset_reserved (s : State) {off : Nat} (v : Word) (h : regAt off = none) :
    writeOffset s off v = s := by
  simp [writeOffset, h]

/-- The words the host can write (R45). `CMD` is none of them: it stores nothing (R11). -/
def Reg.writable : Reg → Bool
  | .cmd => false
  | .status => false
  | .codeLen => false
  | .code _ => false
  | .digits => true
  | .tv => true
  | .ctrHi => true
  | .ctrLo => true
  | .timeHi => true
  | .timeLo => true
  | .epochHi => true
  | .epochLo => true
  | .stepHi => true
  | .stepLo => true
  | .cb _ => true
  | .textLen => true
  | .keyLen => true
  | .digest _ => true
  | .text _ => true
  | .key _ => true

/-- A read-only word ignores a write, and the rest of the state with it. -/
theorem writeReg_readOnly (s : State) {r : Reg} (v : Word) (h : r.writable = false) :
    writeReg s r v = s := by
  cases r <;> simp_all [Reg.writable, writeReg]

/-- A writable word reads as it was written; `TV` without its top bit. -/
theorem readReg_writeReg_same (s : State) {r : Reg} (v : Word) (h : r.writable = true)
    (htv : r ≠ .tv) : readReg (writeReg s r v) r = v := by
  cases r with
  | cb w => exact bufWord_setBufWord_same _ _ (by omega)
  | digest w => exact bufWord_setBufWord_same _ _ (by omega)
  | text w => exact bufWord_setBufWord_same _ _ (by have := w.isLt; simp; omega)
  | key w => exact bufWord_setBufWord_same _ _ (by have := w.isLt; simp; omega)
  | _ => first | (simp [Reg.writable] at h; done) | (simp [writeReg, readReg]; done) | exact absurd rfl htv

theorem readReg_writeReg_tv (s : State) (v : Word) :
    readReg (writeReg s .tv v) .tv = v &&& 0x7FFFFFFF := by
  apply BitVec.eq_of_toNat_eq
  have h : (0x7FFFFFFF : Word).toNat = 2 ^ 31 - 1 := rfl
  have := v.isLt
  simp only [readReg, writeReg, BitVec.toNat_setWidth, BitVec.toNat_and, h,
    Nat.and_two_pow_sub_one_eq_mod]
  omega

/-- A write of one word leaves every other word as it reads. -/
theorem readReg_writeReg_other (s : State) {r r' : Reg} (v : Word) (h : r' ≠ r) :
    readReg (writeReg s r v) r' = readReg s r' := by
  cases r with
  | cmd => rfl
  | status => rfl
  | codeLen => rfl
  | code _ => rfl
  | digits =>
    cases r' with
    | digits => exact absurd rfl h
    | _ => simp only [writeReg, readReg]
  | tv =>
    cases r' with
    | tv => exact absurd rfl h
    | _ => simp only [writeReg, readReg]
  | textLen =>
    cases r' with
    | textLen => exact absurd rfl h
    | _ => simp only [writeReg, readReg]
  | keyLen =>
    cases r' with
    | keyLen => exact absurd rfl h
    | _ => simp only [writeReg, readReg]
  | ctrHi =>
    cases r' with
    | ctrHi => exact absurd rfl h
    | ctrLo => exact lowWord_setHighWord _ _
    | _ => simp only [writeReg, readReg]
  | ctrLo =>
    cases r' with
    | ctrLo => exact absurd rfl h
    | ctrHi => exact highWord_setLowWord _ _
    | _ => simp only [writeReg, readReg]
  | timeHi =>
    cases r' with
    | timeHi => exact absurd rfl h
    | timeLo => exact lowWord_setHighWord _ _
    | _ => simp only [writeReg, readReg]
  | timeLo =>
    cases r' with
    | timeLo => exact absurd rfl h
    | timeHi => exact highWord_setLowWord _ _
    | _ => simp only [writeReg, readReg]
  | epochHi =>
    cases r' with
    | epochHi => exact absurd rfl h
    | epochLo => exact lowWord_setHighWord _ _
    | _ => simp only [writeReg, readReg]
  | epochLo =>
    cases r' with
    | epochLo => exact absurd rfl h
    | epochHi => exact highWord_setLowWord _ _
    | _ => simp only [writeReg, readReg]
  | stepHi =>
    cases r' with
    | stepHi => exact absurd rfl h
    | stepLo => exact lowWord_setHighWord _ _
    | _ => simp only [writeReg, readReg]
  | stepLo =>
    cases r' with
    | stepLo => exact absurd rfl h
    | stepHi => exact highWord_setLowWord _ _
    | _ => simp only [writeReg, readReg]
  | cb w =>
    cases r' with
    | cb w' => exact bufWord_setBufWord_other _ _ (fun e => h (by rw [Fin.ext e]))
    | _ => simp only [writeReg, readReg]
  | digest w =>
    cases r' with
    | digest w' => exact bufWord_setBufWord_other _ _ (fun e => h (by rw [Fin.ext e]))
    | _ => simp only [writeReg, readReg]
  | text w =>
    cases r' with
    | text w' => exact bufWord_setBufWord_other _ _ (fun e => h (by rw [Fin.ext e]))
    | _ => simp only [writeReg, readReg]
  | key w =>
    cases r' with
    | key w' => exact bufWord_setBufWord_other _ _ (fun e => h (by rw [Fin.ext e]))
    | _ => simp only [writeReg, readReg]

/-- A write of a word of the register space changes nothing of the port and sets no status (R43). -/
theorem writeOffset_port (s : State) (off : Nat) (v : Word) :
    (writeOffset s off v).host = s.host ∧ (writeOffset s off v).answer = s.answer ∧
      (writeOffset s off v).status = s.status := by
  unfold writeOffset
  cases regAt off with
  | none => simp
  | some r => cases r <;> simp [writeReg]

end Sys2Proof.Machine
end

