-- ==== Sys2Proof/Laws/Step.lean ====
section
/-! SUPPORT. What one step can do, said once, and how a run of several steps unfolds. -/

namespace Sys2Proof.Machine

/-! ### Each command, as what it computes and how it ends -/

theorem exec_nop (s : State) : exec .nop s = conclude s (.ok s) := rfl
theorem exec_decb32 (s : State) : exec .decb32 s = conclude s (decb32 s) := rfl
theorem exec_dechex (s : State) : exec .dechex s = conclude s (dechex s) := rfl
theorem exec_ctrenc (s : State) : exec .ctrenc s = conclude s (.ok { s with cb := ctrEncode s.ctr }) := rfl
theorem exec_ctrdec (n : Nat) (s : State) : exec (.ctrdec n) s = conclude s (ctrdec n s) := rfl
theorem exec_hmac (s : State) : exec .hmac s = conclude s (hmac s) := rfl
theorem exec_trunc (s : State) : exec .trunc s = conclude s (.ok { s with tv := dynTrunc s.digest }) := rfl
theorem exec_format (s : State) : exec .format s = conclude s (format s) := rfl
theorem exec_totpctr (s : State) : exec .totpctr s = conclude s (totpctr s) := rfl
theorem exec_hotp (s : State) : exec .hotp s = conclude s (hotpCompute s.ctr s) := rfl
theorem exec_totp (s : State) : exec .totp s = conclude s (totp s) := rfl
theorem exec_wipe (s : State) : exec .wipe s = conclude s (.ok s.wiped) := rfl

/-- Every command ends by `conclude`: it answers a next state, in one of its two ways. -/
theorem exec_eq_conclude (i : Instr) (s : State) : ∃ r, exec i s = conclude s r := by
  cases i with
  | nop => exact ⟨.ok s, rfl⟩
  | decb32 => exact ⟨decb32 s, rfl⟩
  | dechex => exact ⟨dechex s, rfl⟩
  | ctrenc => exact ⟨.ok { s with cb := ctrEncode s.ctr }, rfl⟩
  | ctrdec n => exact ⟨ctrdec n s, rfl⟩
  | hmac => exact ⟨hmac s, rfl⟩
  | trunc => exact ⟨.ok { s with tv := dynTrunc s.digest }, rfl⟩
  | format => exact ⟨format s, rfl⟩
  | totpctr => exact ⟨totpctr s, rfl⟩
  | hotp => exact ⟨hotpCompute s.ctr s, rfl⟩
  | totp => exact ⟨totp s, rfl⟩
  | wipe => exact ⟨.ok s.wiped, rfl⟩

/-! ### Steps -/

/-- An accepted access is not refused, and only an accepted access is not (R41). -/
theorem refusalOf_eq_none {off width : Nat} :
    refusalOf off width = none ↔ width = 4 ∧ off % 4 = 0 ∧ off < Config.windowBytes := by
  unfold refusalOf
  simp only [Config.windowBytes]
  by_cases hw : width = 4 <;> by_cases ho : 4096 ≤ off <;> by_cases ha : off % 4 = 0 <;>
    simp [hw, ho, ha]; omega

/-- The cases of a step that answers a next state: the idle core, a read, the four kinds of write
(a command, an illegal word, another word of the register space), and reset. -/
theorem step_cases {s t : State} (h : step s = .next t) :
    (s.host = [] ∧ t = s) ∨
    ∃ e rest, s.host = e :: rest ∧
      ((∃ off, e = .read off 4 ∧ off % 4 = 0 ∧ off < Config.windowBytes ∧
          t = { s with host := rest, answer := some (readOffset s off) }) ∨
        (∃ w i, e = .write (offsetOf .cmd) 4 w ∧ decode w = .ok i ∧
          exec i { s with host := rest, answer := none } = .next t) ∨
        (∃ w k, e = .write (offsetOf .cmd) 4 w ∧ decode w = .error k ∧
          t = { s with host := rest, answer := none, status := .illegalCommand }) ∨
        (∃ off v, e = .write off 4 v ∧ off % 4 = 0 ∧ off < Config.windowBytes ∧
          off ≠ offsetOf .cmd ∧ t = writeOffset { s with host := rest, answer := none } off v) ∨
        (e = .reset ∧ t = { State.reset with host := rest })) := by
  unfold step at h
  split at h
  case h_1 he => exact .inl ⟨he, by simpa using h.symm⟩
  case h_2 e rest he =>
    refine .inr ⟨e, rest, he, ?_⟩
    cases e with
    | read off width =>
      simp only [perform] at h
      split at h
      · cases h
      case h_2 hr =>
        obtain ⟨rfl, ha, hw⟩ := refusalOf_eq_none.1 hr
        exact .inl ⟨off, rfl, ha, hw, by simpa [readOffset, readReg] using h.symm⟩
    | write off width v =>
      simp only [perform] at h
      split at h
      · cases h
      case h_2 hr =>
        obtain ⟨rfl, ha, hw⟩ := refusalOf_eq_none.1 hr
        split at h
        case isTrue hc =>
          subst hc
          unfold runCommandWord at h
          cases hd : decode v with
          | ok i => exact .inr (.inl ⟨v, i, rfl, hd, by simpa [hd] using h⟩)
          | error k =>
            exact .inr (.inr (.inl ⟨v, k, rfl, hd, by simpa [hd, State.raise] using h.symm⟩))
        case isFalse hc =>
          exact .inr (.inr (.inr (.inl ⟨off, v, rfl, ha, hw, hc, by simpa using h.symm⟩)))
    | reset => exact .inr (.inr (.inr (.inr ⟨rfl, by simpa [perform] using h.symm⟩)))

/-- A run of no steps. -/
theorem run_zero (s : State) : Host.Core.run Sys2Proof.core 0 s = .next s := rfl

/-- A run whose first step answers `t` goes on from `t`. -/
theorem run_succ {s t : State} (k : Nat) (h : step s = .next t) :
    Host.Core.run Sys2Proof.core (k + 1) s = Host.Core.run Sys2Proof.core k t := by
  have : Sys2Proof.core.step s = .next t := h
  simp only [Host.Core.run, this]

/-- A write of another word of the register space, as a step. -/
theorem step_write {s : State} {rest : List HostEvent} {off : Nat} {v : Word}
    (h : s.host = .write off 4 v :: rest) (ha : off % 4 = 0) (hw : off < Config.windowBytes)
    (hc : off ≠ offsetOf .cmd) :
    step s = .next (writeOffset { s with host := rest, answer := none } off v) := by
  have hr : refusalOf off 4 = none := refusalOf_eq_none.2 ⟨rfl, ha, hw⟩
  simp only [step, h, perform, hr, if_neg hc]

end Sys2Proof.Machine
end

