-- ==== Sys2Proof/Tests/Slice0.lean ====
section
/-! SUPPORT. Tests of single steps against the worked examples and the vectors of
spec/95_test_vectors.md, and for every obligation with hypotheses a witness that meets them. -/

namespace Sys2Proof.Tests

-- Elaborated one after another: each kernel evaluation below would hold a thread of its own.
set_option Elab.async false

open Sys2Proof.Machine

/-! ### Helpers -/

/-- Whether a step ends in a next state of which `p` holds. -/
def check (o : Host.Outcome State Fault Refusal) (p : State → Bool) : Bool :=
  match o with
  | .next t => p t
  | .fault _ => false
  | .refused _ => false

/-- Whether a step is refused for the reason `r`. -/
def refusedFor (o : Host.Outcome State Fault Refusal) (r : Refusal) : Bool :=
  match o with
  | .next _ => false
  | .fault _ => false
  | .refused q => decide (q = r)

theorem exists_of_check {o : Host.Outcome State Fault Refusal} {P : State → Prop} [DecidablePred P]
    (h : check o (fun t => decide (P t)) = true) : ∃ t, o = .next t ∧ P t := by
  cases o with
  | next t => exact ⟨t, rfl, by simpa [check] using h⟩
  | fault r => cases r
  | refused r => simp [check] at h

/-- The reset state with a text of `n` characters that begins with `bs`. -/
def textState (n : Nat) (bs : List Byte) : State :=
  { State.reset with textLen := BitVec.ofNat 32 n, text := fillBuf 256 bs }

/-- The reset state with a key of `n` bytes that begins with `bs`. -/
def keyState (n : Nat) (bs : List Byte) : State :=
  { State.reset with keyLen := BitVec.ofNat 32 n, key := fillBuf 160 bs }

/-- The reset state with the events `es` pending. -/
def queue (es : List HostEvent) : State := { State.reset with host := es }

/-- The key of the RFC 4226 vectors, `"12345678901234567890"`. -/
def asciiKey : List Byte :=
  [0x31, 0x32, 0x33, 0x34, 0x35, 0x36, 0x37, 0x38, 0x39, 0x30, 0x31, 0x32, 0x33, 0x34, 0x35, 0x36,
    0x37, 0x38, 0x39, 0x30]

/-- The reset state with that key. -/
def asciiState : State := keyState 20 asciiKey

/-- `"MZXW6"`. -/
def mzxw6 : List Byte := [0x4D, 0x5A, 0x58, 0x57, 0x36]

/-- A digest of five words. -/
def digestOf (a b c d e : Word) : Buf 20 :=
  fillBuf 20 ([a, b, c, d, e].flatMap fun w => [wordByte w 0, wordByte w 1, wordByte w 2, wordByte w 3])

/-! ### Well-formedness and decoding -/

/-- R65: the immediate is 0 to 255. -/
theorem test_wellFormed_refuses_wide_immediate :
    (Instr.ctrdec 256).wellFormed = false ∧ (Instr.ctrdec 255).wellFormed = true ∧
      Instr.wipe.wellFormed = true := by decide

/-- The words of R60 to R63, bit by bit: `RSV`, `IMM8`, `OP`. -/
theorem test_decode_every_command :
    decode 0b0000000000000000_00000000_00000000 = .ok .nop ∧
    decode 0b0000000000000000_00000000_00000001 = .ok .decb32 ∧
    decode 0b0000000000000000_00000000_00000010 = .ok .dechex ∧
    decode 0b0000000000000000_00000000_00000011 = .ok .ctrenc ∧
    decode 0b0000000000000000_00001000_00000100 = .ok (.ctrdec 8) ∧
    decode 0b0000000000000000_00000000_00000101 = .ok .hmac ∧
    decode 0b0000000000000000_00000000_00000110 = .ok .trunc ∧
    decode 0b0000000000000000_00000000_00000111 = .ok .format ∧
    decode 0b0000000000000000_00000000_00001000 = .ok .totpctr ∧
    decode 0b0000000000000000_00000000_00010000 = .ok .hotp ∧
    decode 0b0000000000000000_00000000_00010001 = .ok .totp ∧
    decode 0b0000000000000000_00000000_00011111 = .ok .wipe := by decide

/-- The illegal words of spec/95 section 7.5. -/
theorem test_decode_illegal_words :
    [0x00000009, 0x0000000F, 0x00000012, 0x0000001E, 0x00000020, 0x000000FF, 0x00000110, 0x00000100,
      0x00010000, 0x80000010, 0x00010804, (0xFFFFFFFF : Word)].all
      (fun w => check (runCommandWord w State.reset) fun t => t.status == .illegalCommand) = true := by
  decide +kernel

/-- The table's numbering of bits: `CTRDEC 8` is `0x00000804`. -/
theorem test_decodeTableWord : decodeTableWord 32 0x804 = some (.ctrdec 8) := by decide

/-- The first step after reset runs the word placed: `HOTP` without a key fails (R192). -/
theorem test_withFetchWord_runs_first :
    check (step (State.reset.withFetchWord 32 0x10)) (fun t => t.status == .invalidKey) = true := by
  decide +kernel

/-! ### The register space -/

/-- Offsets of R45 at the ends of every range. -/
theorem test_register_map :
    regAt 0x000 = some .cmd ∧ regAt 0x004 = some .status ∧ regAt 0x008 = some .digits ∧
    regAt 0x00C = some .tv ∧ regAt 0x010 = some .ctrHi ∧ regAt 0x02C = some .stepLo ∧
    regAt 0x030 = some (.cb 0) ∧ regAt 0x034 = some (.cb 1) ∧ regAt 0x038 = some .textLen ∧
    regAt 0x03C = some .keyLen ∧ regAt 0x040 = some (.digest 0) ∧ regAt 0x050 = some (.digest 4) ∧
    regAt 0x054 = some .codeLen ∧ regAt 0x058 = some (.code 0) ∧ regAt 0x060 = some (.code 2) ∧
    regAt 0x064 = none ∧ regAt 0x0FC = none ∧ regAt 0x100 = some (.text 0) ∧
    regAt 0x1FC = some (.text 63) ∧ regAt 0x200 = some (.key 0) ∧ regAt 0x29C = some (.key 39) ∧
    regAt 0x2A0 = none ∧ regAt 0xFFC = none := by decide

/-- R44: the text `"MZXW"` is `TEXT0 = 0x4D5A5857`. -/
theorem test_text_packs_big_endian : readOffset (textState 5 mzxw6) 0x100 = 0x4D5A5857 := by
  decide +kernel

/-- P7 of spec/95: `TV` bit 31 is hard-wired. -/
theorem test_write_tv :
    check (step (queue [.write 0x00C 4 0xFFFFFFFF])) (fun t => readOffset t 0x00C == 0x7FFFFFFF) =
      true := by decide +kernel

/-- P7 of spec/95: writes of `STATUS`, `CODELEN`, `CODE0` and reserved words are ignored. -/
theorem test_write_read_only :
    ∀ off ∈ [0x004, 0x054, 0x058, 0x064, 0xFFC],
      check (step (queue [.write off 4 0x41414141])) (fun t => readOffset t off == 0) = true := by
  decide +kernel

/-- R41: accesses that are not accepted. -/
theorem test_refused_accesses :
    refusedFor (step (queue [.read 0x004 1])) .widthNotAccepted = true ∧
    refusedFor (step (queue [.write 0x010 8 0])) .widthNotAccepted = true ∧
    refusedFor (step (queue [.read 0x006 4])) .offsetNotAligned = true ∧
    refusedFor (step (queue [.read 0x1000 4])) .offsetOutsideWindow = true := by decide +kernel

/-- R28 and R45: the two words of the reset state that are not zero, and some that are. -/
theorem test_reset_words :
    readOffset State.reset 0x008 = 6 ∧ readOffset State.reset 0x02C = 0x1E ∧
      ∀ off ∈ [0x000, 0x004, 0x00C, 0x014, 0x01C, 0x024, 0x028, 0x030, 0x038, 0x03C, 0x050, 0x054, 0x060],
        readOffset State.reset off = 0 := by decide +kernel

/-- R192: what each command gives in the reset state. -/
theorem test_commands_in_reset_state :
    (∀ i ∈ [Instr.nop, .ctrenc, .trunc, .format, .totpctr, .wipe, .ctrdec 8],
      check (exec i State.reset) (fun t => t.status == .ok) = true) ∧
    ∀ i ∈ [Instr.decb32, .dechex, .hmac, .hotp, .totp],
      check (exec i State.reset) (fun t => t.status == .invalidKey && t.keyLen == 0 && t.codeLen == 0) =
        true := by
  decide +kernel

/-! ### Single commands, against spec/95 -/

/-- Section 2.1: `"MZXW6"`. -/
theorem test_decb32_mzxw6 :
    check (exec .decb32 (textState 5 mzxw6))
      (fun t => t.status == .ok && t.keyLen == 3 && readOffset t 0x200 == 0x666F6F00) = true := by
  decide +kernel

/-- Section 2.1: `"MZXW6==="` fails, and over the old key; `"Ll"` tells the two letters apart. -/
theorem test_decb32_padding_and_alias :
    check (exec .decb32 (textState 8 (mzxw6 ++ [0x3D, 0x3D, 0x3D]))) (fun t => t.status == .invalidFormat) =
      true ∧
    check (exec .decb32 (textState 2 [0x4C, 0x6C])) (fun t => byteAt t.key 0 == 0x5A) = true := by
  decide +kernel

/-- Section 2.2: `"aF09"`. -/
theorem test_dechex_high_nibble_first :
    check (exec .dechex (textState 4 [0x61, 0x46, 0x30, 0x39]))
      (fun t => t.keyLen == 2 && readOffset t 0x200 == 0xAF090000) = true := by decide +kernel

/-- Section 2.2: `"aF0"` and `"aF0g"` fail. -/
theorem test_dechex_failures :
    check (exec .dechex (textState 3 [0x61, 0x46, 0x30])) (fun t => t.status == .invalidFormat) = true ∧
    check (exec .dechex (textState 4 [0x61, 0x46, 0x30, 0x67])) (fun t => t.status == .invalidFormat) =
      true := by decide +kernel

/-- Section 3: `CTR = 0x0123456789ABCDEF`. -/
theorem test_ctrenc :
    check (exec .ctrenc { State.reset with ctr := 0x0123456789ABCDEF })
      (fun t => readOffset t 0x030 == 0x01234567 && readOffset t 0x034 == 0x89ABCDEF) = true := by
  decide +kernel

/-- Section 3: `CB = FF FF FF FF FF FF FF FE`. -/
theorem test_ctrdec :
    check (exec (.ctrdec 8)
      { State.reset with cb := fillBuf 8 [0xFF, 0xFF, 0xFF, 0xFF, 0xFF, 0xFF, 0xFF, 0xFE] })
      (fun t => t.ctr == 0xFFFFFFFFFFFFFFFE) = true := by decide +kernel

/-- Section 3: `CTRDEC 7` leaves `CTR = 0x55`. -/
theorem test_ctrdec_wrong_length :
    check (exec (.ctrdec 7) { State.reset with ctr := 0x55 })
      (fun t => t.ctr == 0x55 && t.status == .invalidLength) = true := by decide +kernel

/-- Section 4.1: `SHA1("abc")`, and 56 bytes `"a"`, which take a second block. -/
theorem test_sha1 :
    sha1 [0x61, 0x62, 0x63] = digestOf 0xa9993e36 0x4706816a 0xba3e2571 0x7850c26c 0x9cd0d89d ∧
    sha1 (List.replicate 56 0x61) =
      digestOf 0xc2db330f 0x6083854c 0x99d4b5bf 0xb6e8f29f 0x201be699 := by decide +kernel

/-- Section 4.4: the ASCII key and eight zero bytes. -/
theorem test_hmac_ascii_key :
    check (exec .hmac asciiState)
      (fun t => t.digest == digestOf 0xcc93cf18 0x508d9493 0x4c64b65d 0x8ba7667f 0xb7cde4b0) = true := by
  decide +kernel

/-- Section 4.4: 65 bytes `00 01 .. 40`, the first length that is hashed, and `CB = ..01`. -/
theorem test_hmac_hashed_key :
    check (exec .hmac { keyState 65 ((List.range 65).map (BitVec.ofNat 8)) with
        cb := fillBuf 8 [0, 0, 0, 0, 0, 0, 0, 1] })
      (fun t => t.digest == digestOf 0x7f7bb6b5 0x3d6f4de3 0xe5d25fdd 0xfe356529 0x487057dc) = true := by
  decide +kernel

/-- Section 5: offset 11 and the masked bit; offset 15. -/
theorem test_trunc :
    check (exec .trunc { State.reset with
        digest := digestOf 0x75a48a19 0xd4cbe100 0x644e8ac1 0x397eea74 0x7a2d33ab })
      (fun t => t.tv == 0x41397EEA) = true ∧
    check (exec .trunc { State.reset with
        digest := digestOf 0x00010203 0x04050607 0x08090a0b 0x0c0d0e0f 0x1011121f })
      (fun t => t.tv == 0x0F101112) = true := by decide +kernel

/-- Section 6: `TV = 82162583` with 9 digits, a zero on the left. -/
theorem test_format_pads_left :
    check (exec .format { State.reset with tv := 82162583, digits := 9 })
      (fun t => t.codeLen == 9 && readOffset t 0x058 == 0x30383231 && readOffset t 0x05C == 0x36323538 &&
        readOffset t 0x060 == 0x33000000) = true := by decide +kernel

/-- Section 6: 0, 10 and `0xFFFFFFFF` digits fail. -/
theorem test_format_digit_counts :
    [0, 10, (0xFFFFFFFF : Word)].all (fun n =>
      check (exec .format { State.reset with digits := n }) fun t => t.status == .invalidDigits) =
        true := by decide +kernel

/-- R151: times on both sides of the epoch floor, they do not truncate. -/
theorem test_totpctr_floors :
    check (exec .totpctr { State.reset with time := 0xFFFFFFFFFFFFFFFF })
      (fun t => t.ctr == 0xFFFFFFFFFFFFFFFF) = true ∧
    check (exec .totpctr { State.reset with time := -31 }) (fun t => t.ctr == -2) = true ∧
    check (exec .totpctr { State.reset with time := 59 }) (fun t => t.ctr == 1) = true := by
  decide +kernel

/-- R150 (2): the exact difference of the extreme times, `(2^63 - 1) - (-1) = 2^63`, divided by 2. -/
theorem test_totpctr_exact_difference :
    check (exec .totpctr { State.reset with
        time := 0x7FFFFFFFFFFFFFFF, epoch := 0xFFFFFFFFFFFFFFFF, timeStep := 2 })
      (fun t => t.ctr == 0x4000000000000000) = true := by decide +kernel

/-- Section 1.1: counter 0 gives `755224`. -/
theorem test_hotp_counter_0 :
    check (exec .hotp asciiState)
      (fun t => t.tv == 0x4C93CF18 && t.codeLen == 6 && readOffset t 0x058 == 0x37353532 &&
        readOffset t 0x05C == 0x32340000) = true := by decide +kernel

/-- Section 7.4: the order of the checks of `HOTP`. -/
theorem test_hotp_check_order :
    check (exec .hotp { keyState 0 [] with digits := 0 }) (fun t => t.status == .invalidKey) = true ∧
    check (exec .hotp { keyState 161 [] with digits := 0 }) (fun t => t.status == .capacityExceeded) = true ∧
    check (exec .hotp { keyState 3 [] with digits := 10 }) (fun t => t.status == .invalidDigits) = true := by
  decide +kernel

/-- Section 1.2: time 59 with 8 digits gives `94287082`. -/
theorem test_totp_time_59 :
    check (exec .totp { asciiState with time := 59, digits := 8 })
      (fun t => t.ctr == 1 && t.codeLen == 8 && readOffset t 0x058 == 0x39343238 &&
        readOffset t 0x05C == 0x37303832) = true := by decide +kernel

/-- Section 7.4: the order of the checks of `TOTP`, and a failing one leaves `CTR`. -/
theorem test_totp_check_order :
    check (exec .totp { keyState 161 [] with timeStep := 0 }) (fun t => t.status == .invalidTimeStep) = true ∧
    check (exec .totp { keyState 3 [] with digits := 0, ctr := 7, time := 59 })
      (fun t => t.status == .invalidDigits && t.ctr == 7) = true := by decide +kernel

/-- R154: after a failure `NOP` clears the status and nothing else. -/
theorem test_nop :
    exec .nop { asciiState with status := .invalidFormat } = .next asciiState := rfl

/-- R155: `DIGITS`, `CTR` and `CB` stay, the secret and the results go. -/
theorem test_wipe :
    check (exec .wipe { asciiState with
        ctr := 1, cb := fillBuf 8 [1], tv := 5, digits := 8, digest := fillBuf 20 [1]
        code := fillBuf 12 [0x31], codeLen := 1, text := fillBuf 256 [0x41], textLen := 1 })
      (fun t => t.ctr == 1 && byteAt t.cb 0 == 1 && t.digits == 8 && t.tv == 0 && t.keyLen == 0 &&
        byteAt t.key 0 == 0 && byteAt t.digest 0 == 0 && byteAt t.code 0 == 0 && t.codeLen == 0 &&
        byteAt t.text 0 == 0 && t.textLen == 0) = true := by decide +kernel

/-! ### Witnesses: the hypotheses of each obligation are met

One theorem for each obligation of the same name that has hypotheses, at the bounds of its ranges. -/

theorem test_witness_DecodeEncodeAgree :
    (Instr.ctrdec 0).wellFormed = true ∧ (Instr.ctrdec 255).wellFormed = true ∧
      Instr.totp.wellFormed = true ∧ decode 0x00000004 = .ok (.ctrdec 0) ∧
      decode 0x0000FF04 = .ok (.ctrdec 255) ∧ decode 0x00000011 = .ok .totp := by decide

theorem test_witness_CtrdecImmediateIsBits15To8 :
    decode 0x00000004 = .ok (.ctrdec 0) ∧ (0x00000004 : Word).toNat = 0 * 256 + 0x04 ∧
      decode 0x0000FF04 = .ok (.ctrdec 255) ∧ (0x0000FF04 : Word).toNat = 255 * 256 + 0x04 := by decide

/-- The three kinds of illegal word. -/
theorem test_witness_IllegalWordsReportIllegalCommand :
    (0x00010000 : Word).toNat / 65536 ≠ 0 ∧
      (0x00000009 : Word).toNat % 256 ∉ [0x00, 0x01, 0x02, 0x03, 0x04, 0x05, 0x06, 0x07, 0x08, 0x10, 0x11, 0x1F] ∧
      ((0x00000110 : Word).toNat % 256 ∈
          [0x00, 0x01, 0x02, 0x03, 0x04, 0x05, 0x06, 0x07, 0x08, 0x10, 0x11, 0x1F] ∧
        (0x00000110 : Word).toNat % 256 ≠ 0x04 ∧ (0x00000110 : Word).toNat / 256 % 256 ≠ 0) := by decide

theorem test_witness_ResetSetsEveryRegister :
    (queue [.reset, .read 0x004 4]).host = .reset :: [.read 0x004 4] := rfl

theorem test_witness_IdleCoreStaysAsItIs : asciiState.host = [] := rfl

/-- The word placed by `withFetchWord` is the host's next event. -/
theorem test_witness_StepRunsDecodedCommand :
    (asciiState.withFetchWord 32 0x10).host = [.write 0x000 4 0x10] ∧ decode 0x10 = .ok .hotp :=
  ⟨by decide, by decide⟩

theorem test_witness_StepTakesTheFirstEvent :
    ∃ s t e rest, s.host = e :: rest ∧ step s = .next t ∧ e = HostEvent.write 0x000 4 0x00000004 :=
  ⟨queue [.write 0x000 4 0x00000004], _, _, [], rfl, rfl, rfl⟩

/-- Both ends of the window, and accesses on each side of every condition. -/
theorem test_witness_OnlyAlignedWordAccessesAreAccepted :
    (queue [.read 0x000 4]).host = [.read 0x000 4] ∧ (queue [.read 0xFFC 4]).host = [.read 0xFFC 4] ∧
      (queue [.write 0xFFD 4 1]).host = [.write 0xFFD 4 1] ∧
      (queue [.write 0x1000 4 1]).host = [.write 0x1000 4 1] ∧
      (queue [.write 0x010 8 1]).host = [.write 0x010 8 1] ∧ (queue [.reset]).host = [.reset] :=
  ⟨rfl, rfl, rfl, rfl, rfl, rfl⟩

/-- Offsets at the ends of every clause of the map, each an aligned offset of the window. -/
theorem test_witness_HostReadFollowsTheMap :
    ∀ off ∈ [0x000, 0x004, 0x008, 0x00C, 0x010, 0x014, 0x018, 0x01C, 0x020, 0x024, 0x028, 0x02C, 0x030, 0x034,
      0x038, 0x03C, 0x040, 0x050, 0x054, 0x058, 0x060, 0x064, 0x0FC, 0x100, 0x1FC, 0x200, 0x29C, 0x2A0, 0xFFC],
      (queue [.read off 4]).host = [.read off 4] ∧ off % 4 = 0 ∧ off ≤ 0xFFF := by decide

/-- `CMD`, `TV`, the ends of the read-write ranges, and words outside them. -/
theorem test_witness_HostWriteChangesOnlyItsWord :
    ∀ off ∈ [0x000, 0x004, 0x008, 0x00C, 0x050, 0x054, 0x060, 0x064, 0x0FC, 0x100, 0x29C, 0x2A0, 0xFFC],
      (queue [.write off 4 0xFFFFFFFF]).host = [.write off 4 0xFFFFFFFF] ∧ off % 4 = 0 ∧ off ≤ 0xFFF := by
  decide

theorem test_witness_RegisterSpaceShowsTheWholeState :
    ∀ off, off % 4 = 0 → off ≤ 0xFFF →
      readOffset asciiState off = readOffset { asciiState with host := [.reset] } off := by
  intro off _ _
  unfold readOffset
  cases regAt off with
  | none => rfl
  | some r => cases r <;> rfl

theorem test_witness_TruncatedValueTopBitIsHardwired :
    (queue [.write 0x00C 4 0xFFFFFFFF]).host = [.write 0x00C 4 0xFFFFFFFF] := rfl

theorem test_witness_PoliteHostNeverStopsTheCore :
    (queue [.write 0x000 4 0xFFFFFFFF, .read 0xFFC 4, .write 0x064 4 1, .reset]).hostPolite = true := by
  decide

theorem test_witness_FailingCommandChangesOnlyStatus :
    ∃ t, exec .hotp State.reset = .next t ∧ t.status ≠ .ok :=
  exists_of_check (by decide +kernel)

theorem test_witness_CommandsReportExactlyTheirCodes :
    Status.ok ∈ possibleCodes (.ctrdec 8) ∧ Status.invalidLength ∈ possibleCodes (.ctrdec 9) ∧
      Status.invalidDigits ∈ possibleCodes .totp ∧
      decode 0x00000020 = .error .unassignedOpcode := by decide

theorem test_witness_CommandWritesOnlyItsRegisters :
    (∃ t, exec .hotp asciiState = .next t ∧ t.status = .ok) ∧ RegName.ctr ∉ registersWritten .hotp :=
  ⟨exists_of_check (by decide +kernel), by decide⟩

/-- Two states that differ, and agree on all that `HMAC` reads. -/
theorem test_witness_CommandResultDependsOnlyOnItsReads :
    (∀ r ∈ registersRead .hmac, agreeOn asciiState { asciiState with digits := 3, ctr := 9 } r) ∧
      (∃ t, exec .hmac asciiState = .next t ∧ t.status = .ok) ∧
      ∃ t, exec .hmac { asciiState with digits := 3, ctr := 9 } = .next t ∧ t.status = .ok :=
  ⟨by simp [registersRead, agreeOn], exists_of_check (by decide +kernel),
    exists_of_check (by decide +kernel)⟩

/-- Other bytes behind a text of two characters. -/
theorem test_witness_BytesBeyondTheLengthAreIgnored :
    (∀ j < 2, byteAt (fillBuf 256 [0x4D, 0x59, 0x3D]) j = byteAt (textState 2 [0x4D, 0x59]).text j) ∧
      byteAt (fillBuf 256 [0x4D, 0x59, 0x3D]) 2 ≠ byteAt (textState 2 [0x4D, 0x59]).text 2 ∧
      (∀ j < 0, byteAt (fillBuf 160 [0xFF]) j = byteAt (textState 2 [0x4D, 0x59]).key j) ∧
      ∃ t, exec .decb32 (textState 2 [0x4D, 0x59]) = .next t ∧ t.status = .ok :=
  ⟨by decide +kernel, by decide +kernel, by decide, exists_of_check (by decide +kernel)⟩

/-- `=` as the only character, and as the last of 256. -/
theorem test_witness_Base32AlphabetIsTheTable :
    (textState 1 [0x3D]).textLen.toNat = 1 ∧ byteAt (textState 1 [0x3D]).text 0 = 0x3D ∧
      (textState 256 (List.replicate 255 0x41 ++ [0x3D])).textLen.toNat = 256 ∧
      byteAt (textState 256 (List.replicate 255 0x41 ++ [0x3D])).text 255 = 0x3D ∧
      b32val 0x3D = none := by decide +kernel

/-- 257 characters; a bad one; none and one; two and 256 good ones. -/
theorem test_witness_Decb32DecodesTheText :
    256 < (textState 257 []).textLen.toNat ∧
    ((textState 256 []).textLen.toNat ≤ 256 ∧ ∃ i < 256, b32val (byteAt (textState 256 []).text i) = none) ∧
    (textState 0 []).textLen.toNat ≤ 1 ∧
    ((textState 1 [0x41]).textLen.toNat ≤ 1 ∧ ∀ i < 1, b32val (byteAt (textState 1 [0x41]).text i) ≠ none) ∧
    (2 ≤ (textState 2 [0x4D, 0x59]).textLen.toNat ∧
      ∀ i < 2, b32val (byteAt (textState 2 [0x4D, 0x59]).text i) = some (([12, 24] : List (BitVec 5)).getD i 0)) ∧
    (textState 256 (List.replicate 256 0x37)).textLen.toNat = 256 ∧
      ∀ i < 256, b32val (byteAt (textState 256 (List.replicate 256 0x37)).text i) =
        some ((List.replicate 256 (31 : BitVec 5)).getD i 0) := by
  refine ⟨by decide, ⟨by decide, 0, by decide, by decide +kernel⟩, ?_⟩
  decide +kernel

/-- `g` as the first of two characters, and an odd text of one and of 255. -/
theorem test_witness_HexDigitsHaveTheirValues :
    ((textState 2 [0x67, 0x30]).textLen.toNat = 2 ∧
      ∀ d ≤ 15, (hexval (byteAt (textState 2 [0x67, 0x30]).text 0)).map BitVec.toNat ≠ some d) ∧
    (textState 1 [0x30]).textLen.toNat % 2 = 1 ∧ (textState 255 []).textLen.toNat % 2 = 1 ∧
      (textState 255 []).textLen.toNat ≤ 256 := by decide +kernel

/-- 257 characters; an odd text; a bad character; none; two and 256 good ones. -/
theorem test_witness_DechexDecodesTheText :
    256 < (textState 257 []).textLen.toNat ∧ (textState 255 []).textLen.toNat % 2 = 1 ∧
    ((textState 256 []).textLen.toNat % 2 = 0 ∧ hexval (byteAt (textState 256 []).text 255) = none) ∧
    (textState 0 []).textLen.toNat = 0 ∧
    (2 ≤ (textState 2 [0x61, 0x46]).textLen.toNat ∧
      ∀ i < 2, hexval (byteAt (textState 2 [0x61, 0x46]).text i) = some (([10, 15] : List (BitVec 4)).getD i 0)) ∧
    (textState 256 (List.replicate 256 0x39)).textLen.toNat = 256 ∧
      ∀ i < 256, hexval (byteAt (textState 256 (List.replicate 256 0x39)).text i) =
        some ((List.replicate 256 (9 : BitVec 4)).getD i 0) := by decide +kernel

/-- A step that changes the key: `DECB32` on `"MZXW6"`. -/
theorem test_witness_KeyChangesOnlyByDecodeWipeOrHost :
    ∃ t, step ((textState 5 mzxw6).withFetchWord 32 1) = .next t ∧
      ¬ (t.key = ((textState 5 mzxw6).withFetchWord 32 1).key ∧
        t.keyLen = ((textState 5 mzxw6).withFetchWord 32 1).keyLen) :=
  exists_of_check (by decide +kernel)

theorem test_witness_CtrdecReadsTheCounterBigEndian :
    (∀ n ∈ [0, 255], n ≤ 255) ∧ ∀ n ∈ [0, 7, 9, 255], n ≠ 8 := by decide

theorem test_witness_Sha1PaddingFillsWholeBlocks : ([] : List Byte).length < 2 ^ 61 := by decide

theorem test_witness_Sha1ScheduleFollowsTheRecurrence : (blockWords [] 0).length = 16 := by decide

theorem test_witness_Sha1CompressionRunsEightyRounds : (blockWords asciiKey 0).length = 16 := by decide

/-- A key of no bytes, of 64, and of 65. -/
theorem test_witness_HmacIsTheTwoHashes :
    ([] : List Byte).length ≤ 64 ∧ (List.replicate 64 (1 : Byte)).length ≤ 64 ∧
      64 < (List.replicate 65 (1 : Byte)).length := by decide

/-- Zeros up to 64 bytes in all, and a key of 65. -/
theorem test_witness_HmacKeysWithTheSameBlockAgree :
    asciiKey.length + 0 ≤ 64 ∧ asciiKey.length + 44 ≤ 64 ∧ 64 < (List.replicate 65 (1 : Byte)).length := by
  decide

/-- 161 bytes and all ones; none; 1 and 160. -/
theorem test_witness_HmacCommandHashesTheCounterBytes :
    160 < (keyState 161 []).keyLen.toNat ∧ 160 < (keyState 0xFFFFFFFF []).keyLen.toNat ∧
      (keyState 0 []).keyLen.toNat = 0 ∧
      (1 ≤ (keyState 1 []).keyLen.toNat ∧ (keyState 1 []).keyLen.toNat ≤ 160) ∧
      1 ≤ (keyState 160 []).keyLen.toNat ∧ (keyState 160 []).keyLen.toNat ≤ 160 := by decide

/-- 0 and 10 digits; 1 and 9. -/
theorem test_witness_FormatSpellsTheValueModTenToTheN :
    ({ State.reset with digits := 0 } : State).digits.toNat < 1 ∧
      9 < ({ State.reset with digits := 10 } : State).digits.toNat ∧
      1 ≤ ({ State.reset with digits := 1 } : State).digits.toNat ∧
      ({ State.reset with digits := 9 } : State).digits.toNat ≤ 9 := by decide

/-- A full code of 9 characters, and a step from that state. -/
theorem test_witness_EveryStepKeepsTheCodeWellFormed :
    ({ queue [.write 0x000 4 7] with codeLen := 9, code := fillBuf 12 (List.replicate 9 0x39) } :
        State).codeValid ∧
      ∃ t, step { queue [.write 0x000 4 7] with codeLen := 9, code := fillBuf 12 (List.replicate 9 0x39) } =
        .next t ∧ t.codeLen = 6 :=
  ⟨by decide +kernel, exists_of_check (by decide +kernel)⟩

/-- A step of 0, of -1, of the least number; of 1 and of the greatest. -/
theorem test_witness_TotpctrFloorsTheTime :
    ({ State.reset with timeStep := 0 } : State).timeStep.toInt ≤ 0 ∧
      ({ State.reset with timeStep := -1 } : State).timeStep.toInt ≤ 0 ∧
      ({ State.reset with timeStep := 0x8000000000000000 } : State).timeStep.toInt ≤ 0 ∧
      0 < ({ State.reset with timeStep := 1 } : State).timeStep.toInt ∧
      0 < ({ State.reset with timeStep := 0x7FFFFFFFFFFFFFFF } : State).timeStep.toInt := by decide

/-- 161 key bytes; none; a key with 0 and with 10 digits; 1 and 160 bytes with 1 and 9 digits. -/
theorem test_witness_HotpComputesTheCode :
    160 < (keyState 161 []).keyLen.toNat ∧ (keyState 0 []).keyLen.toNat = 0 ∧
      ({ keyState 1 [] with digits := 0 } : State).digits.toNat < 1 ∧
      9 < ({ keyState 160 [] with digits := 10 } : State).digits.toNat ∧
      ((keyState 1 []).keyLen.toNat = 1 ∧ ({ keyState 1 [] with digits := 1 } : State).digits.toNat = 1) ∧
      (keyState 160 []).keyLen.toNat = 160 ∧
      ({ keyState 160 [] with digits := 9 } : State).digits.toNat = 9 := by decide

/-- A state whose checks pass, and the reset state, whose checks do not. -/
theorem test_witness_HotpEqualsTheUnitSequence :
    ((1 ≤ asciiState.keyLen.toNat ∧ asciiState.keyLen.toNat ≤ 160) ∧ 1 ≤ asciiState.digits.toNat ∧
      asciiState.digits.toNat ≤ 9) ∧
    ¬ ((1 ≤ State.reset.keyLen.toNat ∧ State.reset.keyLen.toNat ≤ 160) ∧ 1 ≤ State.reset.digits.toNat ∧
      State.reset.digits.toNat ≤ 9) := by decide

/-- The step of 0; then, with the step of reset, the cases of `HOTP`. -/
theorem test_witness_TotpComputesTheCode :
    ({ State.reset with timeStep := 0 } : State).timeStep.toInt ≤ 0 ∧
      (0 < (keyState 161 []).timeStep.toInt ∧ 160 < (keyState 161 []).keyLen.toNat) ∧
      (0 < State.reset.timeStep.toInt ∧ State.reset.keyLen.toNat = 0) ∧
      (0 < (keyState 1 []).timeStep.toInt ∧ (keyState 1 []).keyLen.toNat = 1 ∧
        9 < ({ keyState 1 [] with digits := 10 } : State).digits.toNat) ∧
      0 < (keyState 160 []).timeStep.toInt ∧ (keyState 160 []).keyLen.toNat = 160 ∧
      ({ keyState 160 [] with digits := 9 } : State).digits.toNat = 9 := by decide

theorem test_witness_TotpEqualsTotpctrThenHotp :
    0 < asciiState.timeStep.toInt ∧ 1 ≤ asciiState.keyLen.toNat ∧ asciiState.keyLen.toNat ≤ 160 ∧
      1 ≤ asciiState.digits.toNat ∧ asciiState.digits.toNat ≤ 9 := by decide

/-- A failing command before `NOP`. -/
theorem test_witness_NopOnlyClearsTheStatus :
    ∃ t, exec .dechex (textState 1 [0x31]) = .next t ∧ t.status ≠ .ok :=
  exists_of_check (by decide +kernel)

theorem test_witness_WipeErasesTheSecret : 0 < asciiState.timeStep.toInt := by decide

/-- A step for each register that changes it: host writes, and a command for the last three. -/
theorem test_witness_OperandRegistersChangeOnlyByTheHost :
    (∃ t, step (queue [.write 0x008 4 9]) = .next t ∧ t.digits ≠ 6) ∧
    (∃ t, step (queue [.write 0x018 4 9]) = .next t ∧ t.time ≠ 0) ∧
    (∃ t, step (queue [.write 0x024 4 9]) = .next t ∧ t.epoch ≠ 0) ∧
    (∃ t, step (queue [.write 0x028 4 9]) = .next t ∧ t.timeStep ≠ 30) ∧
    (∃ t, step (queue [.write 0x1FC 4 9]) = .next t ∧ byteAt t.text 255 ≠ 0) ∧
    (∃ t, step ((textState 5 mzxw6).withFetchWord 32 0x1F) = .next t ∧ t.textLen ≠ 5) ∧
    ∃ t, step ({ State.reset with time := 59 }.withFetchWord 32 8) = .next t ∧ t.ctr ≠ 0 :=
  ⟨exists_of_check (by decide +kernel), exists_of_check (by decide +kernel),
    exists_of_check (by decide +kernel), exists_of_check (by decide +kernel),
    exists_of_check (by decide +kernel), exists_of_check (by decide +kernel),
    exists_of_check (by decide +kernel)⟩

/-- The empty text, one of 5 characters (a word that is not full), and one of 256. -/
theorem test_witness_WrtextLoadsTheText :
    ∀ cs ∈ [[], mzxw6, List.replicate 256 0x41], cs.length ≤ 256 ∧
      (queue (ScriptLine.wrtext cs).accesses).host = (ScriptLine.wrtext cs).accesses := by
  decide +kernel

/-- The accesses `wrtext "MZXW6"` stands for, as spec/95 section 2.1 writes them out. -/
theorem test_wrtext_accesses :
    (ScriptLine.wrtext mzxw6).accesses =
      [.write 0x100 4 0x4D5A5857, .write 0x104 4 0x36000000, .write 0x038 4 5] := by decide +kernel

/-- No key bytes, 3, and 160. -/
theorem test_witness_WrkeyLoadsTheKey :
    ∀ bs ∈ [[], [0x66, 0x6F, 0x6F], List.replicate 160 0xAA], bs.length ≤ 160 ∧
      (queue (ScriptLine.wrkey bs).accesses).host = (ScriptLine.wrkey bs).accesses := by
  decide +kernel

theorem test_witness_WideWritesSetTheWholeRegister :
    (∀ r ∈ [Reg64.ctr, .time, .epoch, .step],
      (queue (ScriptLine.wr64 r 0xFFFFFFFFFFFFFFE2).accesses).host =
        (ScriptLine.wr64 r 0xFFFFFFFFFFFFFFE2).accesses) ∧
    (queue (ScriptLine.wrdigest (digestOf 1 2 3 4 5)).accesses).host =
      [.write 0x040 4 1, .write 0x044 4 2, .write 0x048 4 3, .write 0x04C 4 4, .write 0x050 4 5] ∧
    (queue (ScriptLine.wrcb (fillBuf 8 [0xFF])).accesses).host =
      [.write 0x030 4 0xFF000000, .write 0x034 4 0] := by decide +kernel

end Sys2Proof.Tests
end

section
/-! Every command as an effect: the checks and the operands of its rule decide what is written, and
the write itself reads nothing of the state. The frame and the reads of R29, and that no command
reads the status (R26), follow from this one description. -/

namespace Sys2Proof.Machine

/-! ### The effects -/

/-- The registers of a passcode computed from a counter, a key and a digit count (R152). -/
def State.loadPasscode (s : State) (c : DWord) (k : List Byte) (n : Nat) : State :=
  let hs := hmacSha1 k (ctrEncode c).toList
  ({ s with cb := ctrEncode c, digest := hs, tv := dynTrunc hs }).loadCode
    (decFormat (dynTrunc hs) n)

/-- What a command that fails no check writes, as data: nothing in it refers to a state. -/
inductive Effect where
  | nothing
  | loadKey (out : List Byte)
  | setCb (b : Buf 8)
  | setCtr (c : DWord)
  | setDigest (d : Buf 20)
  | setTv (p : BitVec 31)
  | loadCode (p : BitVec 31) (n : Nat)
  | loadPasscode (c : DWord) (k : List Byte) (n : Nat)
  | loadTimedPasscode (c : DWord) (k : List Byte) (n : Nat)
  | wipe

/-- The state with an effect written to it. -/
def Effect.apply : Effect → State → State
  | .nothing, s => s
  | .loadKey out, s => s.loadKey out
  | .setCb b, s => { s with cb := b }
  | .setCtr c, s => { s with ctr := c }
  | .setDigest d, s => { s with digest := d }
  | .setTv p, s => { s with tv := p }
  | .loadCode p n, s => s.loadCode (decFormat p n)
  | .loadPasscode c k n, s => s.loadPasscode c k n
  | .loadTimedPasscode c k n, s => { s.loadPasscode c k n with ctr := c }
  | .wipe, s => s.wiped

/-- The registers an effect writes, before the status is set to 0. -/
def Effect.registers : Effect → List RegName
  | .nothing => []
  | .loadKey _ => [.key, .keyLen]
  | .setCb _ => [.cb]
  | .setCtr _ => [.ctr]
  | .setDigest _ => [.digest]
  | .setTv _ => [.tv]
  | .loadCode _ _ => [.code, .codeLen]
  | .loadPasscode _ _ _ => [.cb, .digest, .tv, .code, .codeLen]
  | .loadTimedPasscode _ _ _ => [.ctr, .cb, .digest, .tv, .code, .codeLen]
  | .wipe => [.text, .textLen, .key, .keyLen, .digest, .tv, .code, .codeLen]

/-- What a command writes in a state, or the code of its first failing check. -/
def effectOf (i : Instr) (s : State) : Except Status Effect :=
  match i with
  | .nop => return .nothing
  | .decb32 => do
    checkTextCapacity s
    let vs ← valuesOf b32val s.textChars
    checkDecoded (b32decode vs)
    return .loadKey (b32decode vs)
  | .dechex => do
    checkTextCapacity s
    failIf (decide (s.textLen.toNat % 2 = 1)) .invalidFormat
    let hs ← valuesOf hexval s.textChars
    checkDecoded (hexPairs hs)
    return .loadKey (hexPairs hs)
  | .ctrenc => return .setCb (ctrEncode s.ctr)
  | .ctrdec n => do
    failIf (decide (n ≠ 8)) .invalidLength
    return .setCtr (ctrDecode s.cb)
  | .hmac => do
    checkKeyCapacity s
    checkKeyPresent s
    return .setDigest (hmacSha1 s.keyBytes s.cb.toList)
  | .trunc => return .setTv (dynTrunc s.digest)
  | .format => do
    checkDigits s
    return .loadCode s.tv s.digits.toNat
  | .totpctr => do
    checkTimeStep s
    return .setCtr s.timeCounter
  | .hotp => do
    checkKeyCapacity s
    checkKeyPresent s
    checkDigits s
    return .loadPasscode s.ctr s.keyBytes s.digits.toNat
  | .totp => do
    checkTimeStep s
    checkKeyCapacity s
    checkKeyPresent s
    checkDigits s
    return .loadTimedPasscode s.timeCounter s.keyBytes s.digits.toNat
  | .wipe => return .wipe

/-- Every command is its effect: the checks and the operands first, then one write (R23). -/
theorem exec_eq_effect (i : Instr) (s : State) :
    exec i s = conclude s ((·.apply s) <$> effectOf i s) := by
  cases i with
  | nop => rfl
  | decb32 => simp [exec_decb32, decb32, effectOf, Effect.apply, -bind_pure_comp]
  | dechex => simp [exec_dechex, dechex, effectOf, Effect.apply, -bind_pure_comp]
  | ctrenc => rfl
  | ctrdec n => simp [exec_ctrdec, ctrdec, effectOf, Effect.apply, -bind_pure_comp]
  | hmac => simp [exec_hmac, hmac, effectOf, Effect.apply, -bind_pure_comp]
  | trunc => rfl
  | format => simp [exec_format, format, effectOf, Effect.apply, -bind_pure_comp]
  | totpctr => simp [exec_totpctr, totpctr, effectOf, Effect.apply, -bind_pure_comp]
  | hotp =>
    simp [exec_hotp, hotpCompute, effectOf, Effect.apply, State.loadPasscode, -bind_pure_comp]
  | totp =>
    simp [exec_totp, totp, hotpCompute, effectOf, Effect.apply, State.loadPasscode,
      -bind_pure_comp]
  | wipe => rfl

/-- A command that fails a check ends with that check's code. -/
theorem exec_of_effect_error {i : Instr} {s : State} {k : Status} (h : effectOf i s = .error k) :
    exec i s = .next (s.raise k) := by
  rw [exec_eq_effect, h]; rfl

/-- A command that fails none ends with its effect written and the status 0. -/
theorem exec_of_effect_ok {i : Instr} {s : State} {e : Effect} (h : effectOf i s = .ok e) :
    exec i s = .next (e.apply s).succeed := by
  rw [exec_eq_effect, h]; rfl

/-- The two ways a command ends, by its effect. -/
theorem exec_next_cases {i : Instr} {s t : State} (h : exec i s = .next t) :
    (∃ k, effectOf i s = .error k ∧ t = s.raise k) ∨
      ∃ e, effectOf i s = .ok e ∧ t = (e.apply s).succeed := by
  cases he : effectOf i s with
  | error k => exact .inl ⟨k, rfl, by simpa [exec_of_effect_error he] using h.symm⟩
  | ok e => exact .inr ⟨e, rfl, by simpa [exec_of_effect_ok he] using h.symm⟩

/-! ### What an effect writes, and with what -/

/-- An effect leaves every register outside its list as it was. -/
theorem Effect.apply_frame (e : Effect) (s : State) (r : RegName) :
    r ∉ e.registers → agreeOn s (e.apply s) r := by
  cases e <;> cases r <;> simp [Effect.registers, Effect.apply, State.loadPasscode, agreeOn]

/-- What an effect leaves in the registers it writes does not depend on the state. -/
theorem Effect.apply_agree (e : Effect) (s s' : State) (r : RegName) :
    r ∈ e.registers → agreeOn (e.apply s) (e.apply s') r := by
  cases e <;> cases r <;> simp [Effect.registers, Effect.apply, State.loadPasscode, agreeOn]

/-- An effect leaves the port alone. -/
theorem Effect.apply_port (e : Effect) (s : State) :
    (e.apply s).host = s.host ∧ (e.apply s).answer = s.answer := by
  cases e <;> exact ⟨rfl, rfl⟩

/-- An effect is written over any status in the same way. -/
theorem Effect.apply_setStatus (e : Effect) (s : State) (k : Status) :
    e.apply { s with status := k } = { e.apply s with status := k } := by
  cases e <;> rfl

/-- An effect is written over any bytes of the two operand buffers in the same way, but for those
buffers. -/
theorem Effect.apply_setBuffers (e : Effect) (s : State) (text : Buf 256) (key : Buf 160) :
    e.apply s = { e.apply { s with text := text, key := key } with
      text := (e.apply s).text, key := (e.apply s).key } := by
  cases e <;> rfl

theorem agreeOn_refl (s : State) (r : RegName) : agreeOn s s r := by
  cases r <;> rfl

/-- Success changes no register but the status. -/
theorem agreeOn_succeed {s t : State} {r : RegName} (h : agreeOn s t r) :
    agreeOn s.succeed t.succeed r := by
  cases r with
  | status => rfl
  | _ => exact h

theorem agreeOn_succeed_right {s t : State} {r : RegName} (h : agreeOn s t r) (hr : r ≠ .status) :
    agreeOn s t.succeed r := by
  cases r with
  | status => exact absurd rfl hr
  | _ => exact h

/-- A failure changes no register but the status (R172). -/
theorem agreeOn_raise (s : State) (k : Status) {r : RegName} (h : r ≠ .status) :
    agreeOn s (s.raise k) r := by
  cases r with
  | status => exact absurd rfl h
  | _ => rfl

/-! ### The effect of a command -/

/-- Which effects a command can have, with the checks later proofs refer to: `CTRDEC` works for 8
bytes only (R103), and a code has at most 9 digits (R143). -/
inductive HasEffect (s : State) : Instr → Effect → Prop where
  | nop : HasEffect s .nop .nothing
  | decb32 (out : List Byte) : HasEffect s .decb32 (.loadKey out)
  | dechex (out : List Byte) : HasEffect s .dechex (.loadKey out)
  | ctrenc : HasEffect s .ctrenc (.setCb (ctrEncode s.ctr))
  | ctrdec : HasEffect s (.ctrdec 8) (.setCtr (ctrDecode s.cb))
  | hmac : HasEffect s .hmac (.setDigest (hmacSha1 s.keyBytes s.cb.toList))
  | trunc : HasEffect s .trunc (.setTv (dynTrunc s.digest))
  | format (hn : s.digits.toNat ≤ 9) : HasEffect s .format (.loadCode s.tv s.digits.toNat)
  | totpctr : HasEffect s .totpctr (.setCtr s.timeCounter)
  | hotp (hn : s.digits.toNat ≤ 9) :
    HasEffect s .hotp (.loadPasscode s.ctr s.keyBytes s.digits.toNat)
  | totp (hn : s.digits.toNat ≤ 9) :
    HasEffect s .totp (.loadTimedPasscode s.timeCounter s.keyBytes s.digits.toNat)
  | wipe : HasEffect s .wipe .wipe

theorem checkDigits_ok {s : State} {u : Unit} (h : checkDigits s = .ok u) :
    s.digits.toNat ≤ 9 := by
  rw [checkDigits_eq] at h
  split at h
  · cases h
  · omega

/-- A command that fails no check has one of its effects. -/
theorem hasEffect_of_ok {i : Instr} {s : State} {e : Effect} (h : effectOf i s = .ok e) :
    HasEffect s i e := by
  cases i <;> simp only [effectOf, bind_eq_ok, pure_eq_ok, Except.ok.injEq] at h
  case nop => obtain rfl := h; exact .nop
  case decb32 => obtain ⟨_, _, vs, _, _, _, rfl⟩ := h; exact .decb32 _
  case dechex => obtain ⟨_, _, _, _, hs, _, _, _, rfl⟩ := h; exact .dechex _
  case ctrenc => obtain rfl := h; exact .ctrenc
  case ctrdec n =>
    obtain ⟨_, hlen, rfl⟩ := h
    obtain rfl : n = 8 := by
      by_contra hn
      simp [hn] at hlen
    exact .ctrdec
  case hmac => obtain ⟨_, _, _, _, rfl⟩ := h; exact .hmac
  case trunc => obtain rfl := h; exact .trunc
  case format => obtain ⟨_, hd, rfl⟩ := h; exact .format (checkDigits_ok hd)
  case totpctr => obtain ⟨_, _, rfl⟩ := h; exact .totpctr
  case hotp => obtain ⟨_, _, _, _, _, hd, rfl⟩ := h; exact .hotp (checkDigits_ok hd)
  case totp => obtain ⟨_, _, _, _, _, _, _, hd, rfl⟩ := h; exact .totp (checkDigits_ok hd)
  case wipe => obtain rfl := h; exact .wipe

/-- The row of a command in R29 lists the registers of its effect, and the status. -/
theorem registersWritten_of_effect {i : Instr} {s : State} {e : Effect}
    (h : effectOf i s = .ok e) : registersWritten i = e.registers ++ [.status] := by
  cases hasEffect_of_ok h <;> rfl

theorem failIf_eq_error_iff {bad : Bool} {k k' : Status} :
    failIf bad k = .error k' ↔ bad = true ∧ k = k' := by
  cases bad <;> simp

theorem valuesOf_ne_error_ok {α : Type} (val : Byte → Option α) (l : List Byte) :
    valuesOf val l ≠ .error .ok := fun h => by simpa using (valuesOf_error h).1

/-- No check of a command gives the code 0. -/
theorem effectOf_ne_error_ok (i : Instr) (s : State) : effectOf i s ≠ .error .ok := by
  cases i <;>
    simp [effectOf, checkTextCapacity, checkDecoded, checkKeyCapacity, checkKeyPresent, checkDigits,
      checkTimeStep, bind_eq_error, failIf_eq_error_iff, valuesOf_ne_error_ok, -bind_pure_comp]

/-- The effect of a command is a function of the registers it reads (R10, R29). -/
theorem effectOf_congr {i : Instr} {s s' : State} (h : ∀ r ∈ registersRead i, agreeOn s s' r) :
    effectOf i s = effectOf i s' := by
  cases i <;> simp only [registersRead, List.forall_mem_cons, agreeOn] at h <;>
    simp [effectOf, checkTextCapacity_eq, checkKeyCapacity_eq, checkKeyPresent_eq, checkDigits_eq,
      checkTimeStep_eq, State.textChars, State.keyBytes, State.timeCounter, State.timeSigned,
      State.epochSigned, State.stepSigned, h]

/-- Every command writes the status (R26). -/
theorem status_mem_registersWritten (i : Instr) : .status ∈ registersWritten i := by
  cases i <;> simp [registersWritten]

/-- No command reads the status (R26). -/
theorem status_not_read (i : Instr) : .status ∉ registersRead i := by
  cases i <;> simp [registersRead]

theorem effectOf_setStatus (i : Instr) (s : State) (k : Status) :
    effectOf i { s with status := k } = effectOf i s :=
  effectOf_congr fun r hr => by
    cases r with
    | status => exact absurd hr (status_not_read i)
    | _ => rfl

/-- The bytes a length counts are the same in two buffers that agree below it. -/
theorem firstBytes_congr {n : Nat} {b c : Buf n} {len : Nat}
    (h : ∀ j < len, byteAt c j = byteAt b j) : firstBytes c len = firstBytes b len := by
  apply List.ext_getElem (by simp [length_firstBytes])
  intro j hj _
  rw [length_firstBytes] at hj
  have hn : j < n := by omega
  simpa [firstBytes, byteAt_of_lt, hn] using h j (by omega)

/-- The effect of a command is the same with other bytes beyond the two lengths (R20, R21). -/
theorem effectOf_setBuffers {i : Instr} {s : State} {text : Buf 256} {key : Buf 160}
    (ht : ∀ j < s.textLen.toNat, byteAt text j = byteAt s.text j)
    (hk : ∀ j < s.keyLen.toNat, byteAt key j = byteAt s.key j) :
    effectOf i { s with text := text, key := key } = effectOf i s := by
  have htext : State.textChars { s with text := text, key := key } = s.textChars :=
    firstBytes_congr ht
  have hkey : State.keyBytes { s with text := text, key := key } = s.keyBytes :=
    firstBytes_congr hk
  cases i <;> simp only [effectOf, htext, hkey] <;> rfl

/-- Two successes with the same effect agree on every register their command writes. -/
theorem agreeOn_of_effect {i : Instr} {s s' : State} {e : Effect} (he : effectOf i s' = .ok e)
    {r : RegName} (hr : r ∈ registersWritten i) :
    agreeOn (e.apply s).succeed (e.apply s').succeed r := by
  rw [registersWritten_of_effect he, List.mem_append, List.mem_singleton] at hr
  obtain hr | rfl := hr
  · exact agreeOn_succeed (e.apply_agree s s' r hr)
  · rfl

end Sys2Proof.Machine
end

section
/-! What a step keeps and what it changes: the code registers stay well formed (R25), and a register
changes only by reset, by a host write of one of its words, or by a command whose effect lists
it. -/

namespace Sys2Proof.Machine

/-! ### The words of a register -/

/-- The register a word of the map belongs to, whole or in part (R45); `CMD` belongs to none. -/
def Reg.owner : Reg → Option RegName
  | .cmd => none
  | .status => some .status
  | .digits => some .digits
  | .tv => some .tv
  | .ctrHi => some .ctr
  | .ctrLo => some .ctr
  | .timeHi => some .time
  | .timeLo => some .time
  | .epochHi => some .epoch
  | .epochLo => some .epoch
  | .stepHi => some .step
  | .stepLo => some .step
  | .cb _ => some .cb
  | .textLen => some .textLen
  | .keyLen => some .keyLen
  | .digest _ => some .digest
  | .codeLen => some .codeLen
  | .code _ => some .code
  | .text _ => some .text
  | .key _ => some .key

/-- A write of a word of another register leaves a register alone. -/
theorem writeReg_agreeOn (s : State) {reg : Reg} (v : Word) {r : RegName}
    (h : reg.owner ≠ some r) : agreeOn s (writeReg s reg v) r := by
  revert h
  cases reg <;> cases r <;> simp [Reg.owner, writeReg, agreeOn]

/-- The host cannot write the code registers (R25). -/
theorem writeReg_code (s : State) (reg : Reg) (v : Word) :
    (writeReg s reg v).code = s.code ∧ (writeReg s reg v).codeLen = s.codeLen := by
  cases reg <;> exact ⟨rfl, rfl⟩

/-- A write at an offset of the window, as the word of the map it changes. -/
theorem writeOffset_cases (s : State) {off : Nat} (v : Word) (ha : off % 4 = 0) :
    writeOffset s off v = s ∨
      ∃ reg, offsetOf reg = off ∧ writeOffset s off v = writeReg s reg v := by
  cases hreg : regAt off with
  | none => exact .inl (writeOffset_reserved s v hreg)
  | some reg =>
    obtain rfl := offsetOf_of_regAt ha hreg
    exact .inr ⟨reg, rfl, writeOffset_offsetOf s reg v⟩

/-! ### Well-formed codes -/

/-- Whether a state's code is well formed depends on the code registers alone. -/
theorem State.codeValid_congr {s t : State} (hs : s.codeValid) (hc : t.code = s.code)
    (hl : t.codeLen = s.codeLen) : t.codeValid := by
  unfold State.codeValid
  rw [hc, hl]
  exact hs

/-- Every character the formatter writes is an ASCII digit (R142). -/
theorem decFormat_digit (p : BitVec 31) {n i : Nat} (h : i < n) :
    0x30 ≤ ((decFormat p n).getD i 0).toNat ∧ ((decFormat p n).getD i 0).toNat ≤ 0x39 := by
  have hget : ((decFormat p n).getD i 0).toNat =
      0x30 + p.toNat % 10 ^ n / 10 ^ (n - 1 - i) % 10 := by
    simp [decFormat, List.getD_eq_getElem?_getD, h]
    omega
  omega

/-- A code of at most 9 digits, loaded, is well formed (R143). -/
theorem State.loadCode_codeValid (s : State) (p : BitVec 31) {n : Nat} (h : n ≤ 9) :
    (s.loadCode (decFormat p n)).codeValid := by
  have hlen : (BitVec.ofNat 32 n).toNat = n := by simp; omega
  unfold State.codeValid
  simp only [State.loadCode_codeLen, State.loadCode_code, length_decFormat, hlen]
  refine ⟨h, fun i hi => ?_⟩
  rw [byteAt_fillBuf, if_pos hi]
  refine ⟨decFormat_digit p, fun hn => ?_⟩
  rw [List.getD_eq_default]
  rwa [length_decFormat]

/-- No code at all is well formed (R25). -/
theorem State.codeValid_of_zero {s : State} (hl : s.codeLen = 0) (hc : ∀ i, byteAt s.code i = 0) :
    s.codeValid := by
  simp [State.codeValid, hl, hc]

/-- An effect that loads a code loads at most 9 digits. -/
def Effect.codeBounded : Effect → Prop
  | .loadCode _ n => n ≤ 9
  | .loadPasscode _ _ n => n ≤ 9
  | .loadTimedPasscode _ _ n => n ≤ 9
  | _ => True

/-- `FORMAT`, `HOTP` and `TOTP` check the digit count before they load a code (R143, R152, R153). -/
theorem HasEffect.codeBounded {s : State} {i : Instr} {e : Effect} (h : HasEffect s i e) :
    e.codeBounded := by
  cases h with
  | format hn => exact hn
  | hotp hn => exact hn
  | totp hn => exact hn
  | _ => trivial

/-- A bounded effect keeps the code well formed. -/
theorem Effect.apply_codeValid {e : Effect} {s : State} (he : e.codeBounded) (hs : s.codeValid) :
    (e.apply s).codeValid := by
  cases e with
  | loadCode p n => exact State.loadCode_codeValid s p he
  | loadPasscode c k n => exact State.loadCode_codeValid _ _ he
  | loadTimedPasscode c k n =>
    have hcode : (s.loadPasscode c k n).codeValid := State.loadCode_codeValid _ _ he
    exact State.codeValid_congr hcode rfl rfl
  | wipe => exact State.codeValid_of_zero rfl (by simp [Effect.apply])
  | _ => exact hs

/-- Every command keeps the code well formed. -/
theorem exec_codeValid {i : Instr} {s t : State} (hs : s.codeValid) (h : exec i s = .next t) :
    t.codeValid := by
  obtain ⟨k, -, rfl⟩ | ⟨e, he, rfl⟩ := exec_next_cases h
  · exact State.codeValid_congr hs rfl rfl
  · have happly : (e.apply s).codeValid :=
      Effect.apply_codeValid (hasEffect_of_ok he).codeBounded hs
    exact State.codeValid_congr happly rfl rfl

/-! ### What changes a register -/

/-- How an event of the host can have changed a register between two states: reset, a write of one
of the register's words, or a command whose effect lists the register. -/
inductive ChangedBy (s t : State) (r : RegName) : HostEvent → Prop where
  | reset : ChangedBy s t r .reset
  | write (reg : Reg) (v : Word) (hown : reg.owner = some r) (ht : t = writeReg s reg v) :
    ChangedBy s t r (.write (offsetOf reg) 4 v)
  | command (w : Word) (i : Instr) (e : Effect) (hd : decode w = .ok i) (he : HasEffect s i e)
    (hmem : r ∈ e.registers) : ChangedBy s t r (.write (offsetOf .cmd) 4 w)

/-- The port is no part of the registers. -/
theorem agreeOn_port (s t : State) (rest : List HostEvent) (a : Option Word) (r : RegName) :
    agreeOn { s with host := rest, answer := a } t r ↔ agreeOn s t r := by
  cases r <;> rfl

/-- A command changes, the status apart, only what its effect lists. -/
theorem exec_changes {i : Instr} {s t : State} {r : RegName} (hr : r ≠ .status)
    (h : exec i s = .next t) (hne : ¬ agreeOn s t r) : ∃ e, HasEffect s i e ∧ r ∈ e.registers := by
  obtain ⟨k, -, rfl⟩ | ⟨e, he, rfl⟩ := exec_next_cases h
  · exact absurd (agreeOn_raise s k hr) hne
  · refine ⟨e, hasEffect_of_ok he, ?_⟩
    by_contra hmem
    exact hne (agreeOn_succeed_right (e.apply_frame s r hmem) hr)

/-- A write of the register space changes only the register of the word it names. -/
theorem writeOffset_changes {s : State} {off : Nat} {v : Word} {r : RegName} (ha : off % 4 = 0)
    (hne : ¬ agreeOn s (writeOffset s off v) r) :
    ∃ reg, offsetOf reg = off ∧ reg.owner = some r ∧ writeOffset s off v = writeReg s reg v := by
  obtain hsame | ⟨reg, hoff, hreg⟩ := writeOffset_cases s v ha
  · rw [hsame] at hne
    exact absurd (agreeOn_refl s r) hne
  · refine ⟨reg, hoff, ?_, hreg⟩
    by_contra hown
    exact hne (hreg ▸ writeReg_agreeOn s v hown)

/-- A step changes a register other than the status only by its event. -/
theorem step_changedBy {s t : State} {r : RegName} (hr : r ≠ .status) (h : step s = .next t)
    (hne : ¬ agreeOn s t r) :
    ∃ e rest, s.host = e :: rest ∧ ChangedBy { s with host := rest, answer := none } t r e := by
  obtain ⟨-, rfl⟩ | ⟨e, rest, hhost, hev⟩ := step_cases h
  · exact absurd (agreeOn_refl t r) hne
  refine ⟨e, rest, hhost, ?_⟩
  have hne' : ¬ agreeOn { s with host := rest, answer := none } t r := by rwa [agreeOn_port]
  obtain ⟨off, -, -, -, rfl⟩ | ⟨w, i, rfl, hd, hexec⟩ | ⟨w, k, -, -, rfl⟩ |
    ⟨off, v, rfl, ha, -, -, rfl⟩ | ⟨rfl, -⟩ := hev
  · exact absurd ((agreeOn_port s s rest none r).2 (agreeOn_refl s r)) hne'
  · obtain ⟨e, he, hmem⟩ := exec_changes hr hexec hne'
    exact .command w i e hd he hmem
  · exact absurd (agreeOn_raise { s with host := rest, answer := none } .illegalCommand hr) hne'
  · obtain ⟨reg, rfl, hown, ht⟩ := writeOffset_changes ha hne'
    exact .write reg v hown ht
  · exact .reset

/-- `DIGITS`, `TIME`, `EPOCH` and `STEP` are written by no command (R13, R16, R17, R18). -/
theorem Effect.operand_not_mem_registers (e : Effect) {r : RegName}
    (hr : r ∈ [.digits, .time, .epoch, .step]) : r ∉ e.registers := by
  obtain rfl | rfl | rfl | rfl : r = .digits ∨ r = .time ∨ r = .epoch ∨ r = .step := by
    simpa using hr
  all_goals cases e <;> simp [Effect.registers]

/-- The text is written by `WIPE` alone among the commands (R20). -/
theorem HasEffect.eq_wipe {s : State} {i : Instr} {e : Effect} (h : HasEffect s i e)
    (hmem : .text ∈ e.registers ∨ .textLen ∈ e.registers) : i = .wipe := by
  cases h <;> simp [Effect.registers] at hmem ⊢

/-- The counter is written by `CTRDEC 8`, `TOTPCTR` and `TOTP` alone among the commands (R15,
R178). -/
theorem HasEffect.instr_of_ctr {s : State} {i : Instr} {e : Effect} (h : HasEffect s i e)
    (hmem : .ctr ∈ e.registers) : i = .ctrdec 8 ∨ i = .totpctr ∨ i = .totp := by
  cases h <;> simp [Effect.registers] at hmem ⊢

section
variable {s t : State} {e : HostEvent}

/-- A register no command writes and that is two words of the map. -/
theorem ChangedBy.halves {r : RegName} {hi lo : Reg} (h : ChangedBy s t r e)
    (hr : r ∈ [.digits, .time, .epoch, .step])
    (hwords : ∀ reg : Reg, reg.owner = some r → reg = hi ∨ reg = lo) :
    e = .reset ∨ ∃ v, e = .write (offsetOf hi) 4 v ∨ e = .write (offsetOf lo) 4 v := by
  cases h with
  | reset => exact .inl rfl
  | write reg v hown _ =>
    obtain rfl | rfl := hwords reg hown
    · exact .inr ⟨v, .inl rfl⟩
    · exact .inr ⟨v, .inr rfl⟩
  | command w i e hd he hmem => exact absurd hmem (e.operand_not_mem_registers hr)

theorem ChangedBy.time (h : ChangedBy s t .time e) :
    e = .reset ∨ ∃ v, e = .write 0x018 4 v ∨ e = .write 0x01C 4 v :=
  h.halves (hi := .timeHi) (lo := .timeLo) (by simp) fun reg hown => by
    cases reg <;> simp [Reg.owner] at hown ⊢

theorem ChangedBy.epoch (h : ChangedBy s t .epoch e) :
    e = .reset ∨ ∃ v, e = .write 0x020 4 v ∨ e = .write 0x024 4 v :=
  h.halves (hi := .epochHi) (lo := .epochLo) (by simp) fun reg hown => by
    cases reg <;> simp [Reg.owner] at hown ⊢

theorem ChangedBy.step (h : ChangedBy s t .step e) :
    e = .reset ∨ ∃ v, e = .write 0x028 4 v ∨ e = .write 0x02C 4 v :=
  h.halves (hi := .stepHi) (lo := .stepLo) (by simp) fun reg hown => by
    cases reg <;> simp [Reg.owner] at hown ⊢

theorem ChangedBy.digits (h : ChangedBy s t .digits e) :
    e = .reset ∨ ∃ v, e = .write 0x008 4 v ∧ t.digits = v := by
  cases h with
  | reset => exact .inl rfl
  | write reg v hown ht =>
    obtain rfl : reg = .digits := by cases reg <;> simp [Reg.owner] at hown ⊢
    exact .inr ⟨v, rfl, congrArg State.digits ht⟩
  | command w i e hd he hmem => exact absurd hmem (e.operand_not_mem_registers (by simp))

theorem ChangedBy.text (h : ChangedBy s t .text e) :
    e = .reset ∨ (∃ off v, e = .write off 4 v ∧ 0x100 ≤ off ∧ off < 0x200) ∨
      ∃ w, e = .write 0x000 4 w ∧ decode w = .ok .wipe := by
  cases h with
  | reset => exact .inl rfl
  | write reg v hown ht =>
    obtain ⟨w, rfl⟩ : ∃ w, reg = .text w := by cases reg <;> simp [Reg.owner] at hown ⊢
    refine .inr (.inl ⟨_, v, rfl, ?_⟩)
    simp only [offsetOf]
    omega
  | command w i e hd he hmem =>
    obtain rfl := he.eq_wipe (.inl hmem)
    exact .inr (.inr ⟨w, rfl, hd⟩)

theorem ChangedBy.textLen (h : ChangedBy s t .textLen e) :
    e = .reset ∨ (∃ v, e = .write 0x038 4 v ∧ t.textLen = v) ∨
      ∃ w, e = .write 0x000 4 w ∧ decode w = .ok .wipe := by
  cases h with
  | reset => exact .inl rfl
  | write reg v hown ht =>
    obtain rfl : reg = .textLen := by cases reg <;> simp [Reg.owner] at hown ⊢
    exact .inr (.inl ⟨v, rfl, congrArg State.textLen ht⟩)
  | command w i e hd he hmem =>
    obtain rfl := he.eq_wipe (.inr hmem)
    exact .inr (.inr ⟨w, rfl, hd⟩)

theorem ChangedBy.ctr (h : ChangedBy s t .ctr e) :
    e = .reset ∨ (∃ v, e = .write 0x010 4 v ∨ e = .write 0x014 4 v) ∨
      ∃ w, e = .write 0x000 4 w ∧
        (decode w = .ok (.ctrdec 8) ∨ decode w = .ok .totpctr ∨ decode w = .ok .totp) := by
  cases h with
  | reset => exact .inl rfl
  | write reg v hown ht =>
    obtain rfl | rfl : reg = .ctrHi ∨ reg = .ctrLo := by
      cases reg <;> simp [Reg.owner] at hown ⊢
    · exact .inr (.inl ⟨v, .inl rfl⟩)
    · exact .inr (.inl ⟨v, .inr rfl⟩)
  | command w i e hd he hmem =>
    refine .inr (.inr ⟨w, rfl, ?_⟩)
    obtain rfl | rfl | rfl := he.instr_of_ctr hmem
    · exact .inl hd
    · exact .inr (.inl hd)
    · exact .inr (.inr hd)

end

/-- What holds of every event that can have changed a register holds of the event of a step that
changed it. -/
theorem step_changed {s t : State} (h : step s = .next t) (r : RegName) {P : HostEvent → Prop}
    (hr : r ≠ .status) (hP : ∀ {u e}, ChangedBy u t r e → P e) (hne : ¬ agreeOn s t r) :
    ∃ e rest, s.host = e :: rest ∧ P e := by
  obtain ⟨e, rest, hhost, hby⟩ := step_changedBy hr h hne
  exact ⟨e, rest, hhost, hP hby⟩

end Sys2Proof.Machine
end

section
/-! The register space as a picture of the state (R30, R45), and two kinds of event as steps: a
command word and reset. -/

namespace Sys2Proof.Machine

/-! ### The register space shows the state -/

/-- Every word of the map stands at an aligned offset of the window (R45). -/
theorem offsetOf_accepted (r : Reg) : offsetOf r % 4 = 0 ∧ offsetOf r ≤ 0xFFF := by
  cases r <;> simp [offsetOf] <;> omega

/-- A byte of a buffer is a byte of its word (R44). -/
theorem wordByte_bufWord {n : Nat} (b : Buf n) (w : Nat) {j : Nat} (hj : j < 4) :
    wordByte (bufWord b w) j = byteAt b (4 * w + j) := by
  obtain ⟨h0, h1, h2, h3⟩ := wordByte_be32 (byteAt b (4 * w)) (byteAt b (4 * w + 1))
    (byteAt b (4 * w + 2)) (byteAt b (4 * w + 3))
  obtain rfl | rfl | rfl | rfl : j = 0 ∨ j = 1 ∨ j = 2 ∨ j = 3 := by omega
  · exact h0
  · exact h1
  · exact h2
  · exact h3

/-- Two buffers of whole words with the same words are the same. -/
theorem buf_ext_words {n m : Nat} {b c : Buf n} (hn : n = 4 * m)
    (h : ∀ w : Fin m, bufWord b w = bufWord c w) : b = c := by
  apply buf_ext
  intro i hi
  have hword := h ⟨i / 4, by omega⟩
  have hmod : i % 4 < 4 := Nat.mod_lt i (by decide)
  rw [← Nat.div_add_mod i 4, ← wordByte_bufWord b _ hmod, ← wordByte_bufWord c _ hmod, hword]

/-- The word of the status names its code (R12, R69). -/
theorem Status.word_inj {j k : Status} (h : j.word = k.word) : j = k := by
  revert h; cases j <;> cases k <;> decide

/-- The upper bit of `TV` is no storage (R14). -/
theorem setWidth_tv_inj {x y : BitVec 31} (h : x.setWidth 32 = y.setWidth 32) : x = y := by
  have hnat := congrArg BitVec.toNat h
  rw [BitVec.toNat_setWidth_of_le (by decide), BitVec.toNat_setWidth_of_le (by decide)] at hnat
  exact BitVec.eq_of_toNat_eq hnat

/-- Two states that read the same in every word agree in every register. -/
theorem agreeOn_of_readReg {s t : State} (h : ∀ reg, readReg s reg = readReg t reg) (r : RegName) :
    agreeOn s t r := by
  cases r with
  | status => exact Status.word_inj (h .status)
  | digits => exact h .digits
  | tv => exact setWidth_tv_inj (h .tv)
  | ctr => exact dword_ext (h .ctrHi) (h .ctrLo)
  | time => exact dword_ext (h .timeHi) (h .timeLo)
  | epoch => exact dword_ext (h .epochHi) (h .epochLo)
  | step => exact dword_ext (h .stepHi) (h .stepLo)
  | textLen => exact h .textLen
  | keyLen => exact h .keyLen
  | codeLen => exact h .codeLen
  | cb => exact buf_ext_words rfl fun w => h (.cb w)
  | digest => exact buf_ext_words rfl fun w => h (.digest w)
  | code => exact buf_ext_words rfl fun w => h (.code w)
  | text => exact buf_ext_words rfl fun w => h (.text w)
  | key => exact buf_ext_words rfl fun w => h (.key w)

/-- States that agree in every register are equal but for the port. -/
theorem State.ext_of_agreeOn {s t : State} (h : ∀ r, agreeOn s t r) :
    s = { t with host := s.host, answer := s.answer } := by
  cases s
  rw [State.mk.injEq]
  exact ⟨h .status, h .digits, h .tv, h .ctr, h .time, h .epoch, h .step, h .textLen, h .keyLen,
    h .codeLen, h .cb, h .digest, h .code, h .text, h .key, rfl, rfl⟩

/-- `TV` is read at its offset (R45). -/
theorem toNat_readOffset_tv (s : State) : (readOffset s 0x00C).toNat = s.tv.toNat := by
  have hread : readOffset s 0x00C = s.tv.setWidth 32 := readOffset_offsetOf s .tv
  rw [hread, BitVec.toNat_setWidth_of_le (by decide)]

/-- `TV` takes the low 31 bits of what is written at its offset (R14). -/
theorem writeOffset_tv (s : State) (v : Word) :
    writeOffset s 0x00C v = { s with tv := v.setWidth 31 } :=
  writeOffset_offsetOf s .tv v

/-- The reset event, as a step (R190). -/
theorem step_reset {s : State} {rest : List HostEvent} (h : s.host = .reset :: rest) :
    step s = .next { State.reset with host := rest } := by
  simp only [step, h, perform]

/-- A command word, as a step (R11, R23). -/
theorem step_command {s : State} {rest : List HostEvent} {w : Word}
    (h : s.host = .write (offsetOf .cmd) 4 w :: rest) :
    step s = runCommandWord w { s with host := rest, answer := none } := by
  have hr : refusalOf (offsetOf .cmd) 4 = none := by decide
  simp only [step, h, perform, hr, if_true]

end Sys2Proof.Machine
end

section
/-! The statements about the state that this part settles, each from the lemmas above. -/

namespace Sys2Proof.Machine

/-- Settles O44: at reset there is no code. -/
theorem resetCodeIsWellFormed : Obligations.ResetCodeIsWellFormed :=
  State.codeValid_of_zero rfl (byteAt_replicate_zero _)

/-- Settles O43, by the cases of a step: the host cannot write the code registers, and a command
that writes them has checked its digit count. -/
theorem everyStepKeepsTheCodeWellFormed : Obligations.EveryStepKeepsTheCodeWellFormed := by
  intro s t hs h
  obtain ⟨-, rfl⟩ | ⟨e, rest, -, hev⟩ := step_cases h
  · exact hs
  obtain ⟨off, -, -, -, rfl⟩ | ⟨w, i, -, -, hexec⟩ | ⟨w, k, -, -, rfl⟩ |
    ⟨off, v, -, ha, -, -, rfl⟩ | ⟨-, rfl⟩ := hev
  · exact State.codeValid_congr hs rfl rfl
  · have htaken : State.codeValid { s with host := rest, answer := none } :=
      State.codeValid_congr hs rfl rfl
    exact exec_codeValid htaken hexec
  · exact State.codeValid_congr hs rfl rfl
  · obtain hsame | ⟨reg, -, hreg⟩ := writeOffset_cases _ v ha
    · rw [hsame]
      exact State.codeValid_congr hs rfl rfl
    · rw [hreg]
      obtain ⟨hcode, hlen⟩ := writeReg_code { s with host := rest, answer := none } reg v
      exact State.codeValid_congr hs hcode hlen
  · exact State.codeValid_congr resetCodeIsWellFormed rfl rfl

/-- Settles O14: every register is spelt by its words. -/
theorem registerSpaceShowsTheWholeState : Obligations.RegisterSpaceShowsTheWholeState := by
  intro s t h
  refine State.ext_of_agreeOn (agreeOn_of_readReg fun reg => ?_)
  obtain ⟨ha, hw⟩ := offsetOf_accepted reg
  simpa using h (offsetOf reg) ha hw

/-- Settles O15, by the eight codes. -/
theorem statusReadsTheCodeNumber : Obligations.StatusReadsTheCodeNumber := by
  intro s
  have hread : readOffset s 0x004 = s.status.word := readOffset_offsetOf s .status
  rw [hread]
  cases s.status <;> decide

/-- Settles O16: 31 bits are stored. -/
theorem truncatedValueTopBitIsHardwired : Obligations.TruncatedValueTopBitIsHardwired := by
  intro s
  refine ⟨?_, fun v rest hhost => ⟨_, step_write hhost (by decide) (by decide) (by decide), ?_⟩⟩
  · rw [toNat_readOffset_tv]
    exact s.tv.isLt
  · rw [toNat_readOffset_tv, writeOffset_tv, BitVec.toNat_setWidth]

/-- Settles O20: the effect does not read the status, and ends by setting it. -/
theorem commandsIgnoreTheOldStatus : Obligations.CommandsIgnoreTheOldStatus := by
  intro i s k
  rw [exec_eq_effect, exec_eq_effect, effectOf_setStatus]
  cases effectOf i s with
  | error c => rfl
  | ok e => exact congrArg (Host.Outcome.next ·.succeed) (e.apply_setStatus s k)

/-- Settles O21: an effect leaves what it does not list, a failure everything but the status. -/
theorem commandWritesOnlyItsRegisters : Obligations.CommandWritesOnlyItsRegisters := by
  intro i s t h
  obtain ⟨k, -, rfl⟩ | ⟨e, he, rfl⟩ := exec_next_cases h
  · refine ⟨fun r hr => agreeOn_raise s k ?_, rfl, rfl⟩
    rintro rfl
    exact hr (status_mem_registersWritten i)
  · refine ⟨fun r hr => ?_, e.apply_port s⟩
    rw [registersWritten_of_effect he, List.mem_append, List.mem_singleton, not_or] at hr
    exact agreeOn_succeed_right (e.apply_frame s r hr.1) hr.2

/-- Settles O22: the reads decide the effect, and the effect decides the results. -/
theorem commandResultDependsOnlyOnItsReads : Obligations.CommandResultDependsOnlyOnItsReads := by
  intro i s s' t t' hreads h h'
  have heq := effectOf_congr hreads
  obtain ⟨k, hk, rfl⟩ | ⟨e, he, rfl⟩ := exec_next_cases h'
  · rw [exec_of_effect_error (heq.trans hk)] at h
    cases h
    refine ⟨rfl, fun hok => ?_⟩
    rw [State.raise_status] at hok
    exact absurd (hok ▸ hk) (effectOf_ne_error_ok i s')
  · rw [exec_of_effect_ok (heq.trans he)] at h
    cases h
    exact ⟨rfl, fun _ r hr => agreeOn_of_effect he hr⟩

/-- Settles O23: the bytes beyond the lengths do not reach the effect, and the effect is written
over them in the same way. -/
theorem bytesBeyondTheLengthAreIgnored : Obligations.BytesBeyondTheLengthAreIgnored := by
  intro i s t text' key' ht hk h
  have heq : effectOf i { s with text := text', key := key' } = effectOf i s :=
    effectOf_setBuffers ht hk
  obtain ⟨k, herr, rfl⟩ | ⟨e, he, rfl⟩ := exec_next_cases h
  · refine ⟨_, exec_of_effect_error (heq.trans herr), rfl, fun _ hok => ?_⟩
    rw [State.raise_status] at hok
    exact absurd (hok ▸ herr) (effectOf_ne_error_ok i s)
  · refine ⟨_, exec_of_effect_ok (heq.trans he),
      congrArg State.succeed (e.apply_setBuffers s text' key'), fun hi _ => ?_⟩
    have hkey : .key ∈ registersWritten i := by
      obtain rfl | rfl := hi <;> simp [registersWritten]
    exact agreeOn_of_effect (s := { s with text := text', key := key' }) he hkey

/-- Settles O52: each register by what can change it. -/
theorem operandRegistersChangeOnlyByTheHost : Obligations.OperandRegistersChangeOnlyByTheHost := by
  intro s t h
  exact ⟨fun hne => step_changed h .digits (by decide) ChangedBy.digits hne.symm,
    fun hne => step_changed h .time (by decide) ChangedBy.time hne.symm,
    fun hne => step_changed h .epoch (by decide) ChangedBy.epoch hne.symm,
    fun hne => step_changed h .step (by decide) ChangedBy.step hne.symm,
    fun hne => step_changed h .text (by decide) ChangedBy.text hne.symm,
    fun hne => step_changed h .textLen (by decide) ChangedBy.textLen hne.symm,
    fun hne => step_changed h .ctr (by decide) ChangedBy.ctr hne.symm⟩

/-- Settles O7: the reset state is that of the table, whatever is pending. -/
theorem resetSetsEveryRegister : Obligations.ResetSetsEveryRegister := by
  unfold Obligations.ResetSetsEveryRegister
  intro atReset
  have hreset : ∀ rest, atReset { State.reset with host := rest } := fun rest =>
    ⟨rfl, rfl, rfl, rfl, rfl, rfl, rfl, fun i _ => byteAt_replicate_zero 8 i, rfl,
      fun i _ => byteAt_replicate_zero 256 i, rfl, fun i _ => byteAt_replicate_zero 160 i,
      fun i _ => byteAt_replicate_zero 20 i, rfl, fun i _ => byteAt_replicate_zero 12 i⟩
  exact ⟨hreset [], fun s rest hhost => ⟨_, step_reset hhost, hreset rest, rfl⟩⟩

/-- Settles O9: a word that decodes runs as its command. -/
theorem stepRunsDecodedCommand : Obligations.StepRunsDecodedCommand := by
  intro s rest w i hhost hd
  rw [step_command hhost, runCommandWord, hd]

end Sys2Proof.Machine
end

section
/-! One event of the host and what becomes of it (R41, R49): an accepted event is performed and
leaves the queue behind it alone, any other is refused. With it, a read as a step, and what
every word of the register space reads as before and after a write. -/

namespace Sys2Proof.Machine

/-! ### One event -/

/-- The accesses R41 accepts, with the last offset of the window written out. -/
theorem accepted_read {off width : Nat} :
    (HostEvent.read off width).accepted = true ↔ width = 4 ∧ off % 4 = 0 ∧ off ≤ 0xFFF := by
  simp only [HostEvent.accepted, Config.windowBytes, decide_eq_true_iff, Nat.lt_succ_iff]

/-- A write is accepted where a read is, whatever its data. -/
theorem accepted_write {off width : Nat} {v : Word} :
    (HostEvent.write off width v).accepted = true ↔ width = 4 ∧ off % 4 = 0 ∧ off ≤ 0xFFF :=
  accepted_read

/-- An access is refused by name exactly where it is not accepted. -/
theorem refusalOf_cases (off width : Nat) :
    ((HostEvent.read off width).accepted = true ∧ refusalOf off width = none) ∨
      ((HostEvent.read off width).accepted = false ∧ ∃ r, refusalOf off width = some r) := by
  have hiff : refusalOf off width = none ↔ (HostEvent.read off width).accepted = true := by
    rw [refusalOf_eq_none, HostEvent.accepted, decide_eq_true_iff]
  cases h : refusalOf off width with
  | none => exact .inl ⟨hiff.1 h, rfl⟩
  | some r =>
    refine .inr ⟨?_, r, rfl⟩
    rw [← Bool.not_eq_true, ← hiff, h]
    exact Option.some_ne_none r

/-- A command word, legal or not, answers a next state with the same events pending (R23, R64). -/
theorem runCommandWord_next (w : Word) (s : State) :
    ∃ t, runCommandWord w s = .next t ∧ t.host = s.host := by
  unfold runCommandWord
  cases decode w with
  | error _ => exact ⟨_, rfl, rfl⟩
  | ok i =>
    cases he : effectOf i s with
    | error k => exact ⟨_, exec_of_effect_error he, rfl⟩
    | ok e => exact ⟨_, exec_of_effect_ok he, (e.apply_port s).1⟩

/-- An accepted event is performed and changes nothing of what is pending; any other is refused
(R41, R49). -/
theorem perform_cases (e : HostEvent) (s : State) :
    (e.accepted = true ∧ ∃ t, perform e s = .next t ∧ t.host = s.host) ∨
      (e.accepted = false ∧ ∃ r, perform e s = .refused r) := by
  cases e with
  | read off width =>
    obtain ⟨ha, hr⟩ | ⟨ha, r, hr⟩ := refusalOf_cases off width
    · refine .inl ⟨ha, { s with answer := some (readOffset s off) }, ?_, rfl⟩
      simp only [perform, hr]
    · exact .inr ⟨ha, r, by rw [perform, hr]⟩
  | write off width v =>
    obtain ⟨ha, hr⟩ | ⟨ha, r, hr⟩ := refusalOf_cases off width
    · refine .inl ⟨ha, ?_⟩
      simp only [perform, hr]
      split
      · exact runCommandWord_next v s
      · exact ⟨_, rfl, (writeOffset_port s off v).1⟩
    · exact .inr ⟨ha, r, by rw [perform, hr]⟩
  | reset => exact .inl ⟨rfl, _, rfl, rfl⟩

/-- The step of a core with an event pending, by whether the core accepts that event. -/
theorem step_event_cases {s : State} {e : HostEvent} {rest : List HostEvent}
    (h : s.host = e :: rest) :
    (e.accepted = true ∧ ∃ t, step s = .next t ∧ t.host = rest) ∨
      (e.accepted = false ∧ ∃ r, step s = .refused r) := by
  have hstep : step s = perform e { s with host := rest, answer := none } := by
    simp only [step, h]
  rw [hstep]
  exact perform_cases e _

/-- Refusals and next states, as equivalences. -/
theorem step_event_iff {s : State} {e : HostEvent} {rest : List HostEvent}
    (h : s.host = e :: rest) :
    ((∃ r, step s = .refused r) ↔ ¬ e.accepted = true) ∧
      ((∃ t, step s = .next t) ↔ e.accepted = true) := by
  obtain ⟨ha, t, ht, -⟩ | ⟨ha, r, hr⟩ := step_event_cases h
  · simp [ha, ht]
  · simp [ha, hr]

/-- A step from a state whose pending events are all accepted ends in such a state again. -/
theorem step_polite {s : State} (h : s.hostPolite = true) :
    ∃ t, step s = .next t ∧ t.hostPolite = true := by
  cases hhost : s.host with
  | nil => exact ⟨s, by simp only [step, hhost], h⟩
  | cons e rest =>
    rw [State.hostPolite, hhost, List.all_cons, Bool.and_eq_true] at h
    obtain ⟨he, hrest⟩ := h
    obtain ⟨-, t, ht, hpending⟩ | ⟨hrefused, -⟩ := step_event_cases hhost
    · exact ⟨t, ht, by rwa [State.hostPolite, hpending]⟩
    · rw [he] at hrefused
      cases hrefused

/-- An invariant under which every step answers is one under which every run does. -/
theorem run_of_invariant {I : State → Prop} (hstep : ∀ s, I s → ∃ t, step s = .next t ∧ I t)
    (k : Nat) (s : State) (hs : I s) :
    ∃ t, Host.Core.run Sys2Proof.core k s = .next t ∧ I t := by
  induction k generalizing s with
  | zero => exact ⟨s, run_zero s, hs⟩
  | succ k ih =>
    obtain ⟨u, hu, hIu⟩ := hstep s hs
    rw [run_succ k hu]
    exact ih u hIu

/-! ### Reads by offset -/

/-- A word of the map, read at an offset known to be its own. -/
theorem readOffset_of_eq (s : State) (r : Reg) {off : Nat} (h : off = offsetOf r) :
    readOffset s off = readReg s r := by
  rw [h, readOffset_offsetOf]

/-- The port is no part of the register space. -/
theorem readOffset_setPort (s : State) (rest : List HostEvent) (a : Option Word) (off : Nat) :
    readOffset { s with host := rest, answer := a } off = readOffset s off := by
  unfold readOffset
  cases regAt off with
  | none => rfl
  | some r => cases r <;> rfl

/-- An accepted read, as a step: it answers what stands at its offset (R42). -/
theorem step_read {s : State} {rest : List HostEvent} {off : Nat} {v : Word}
    (h : s.host = .read off 4 :: rest) (ha : off % 4 = 0) (hw : off < Config.windowBytes)
    (hv : readOffset s off = v) :
    step s = .next { s with host := rest, answer := some v } := by
  have hr : refusalOf off 4 = none := refusalOf_eq_none.2 ⟨rfl, ha, hw⟩
  simp only [step, h, perform, hr, readOffset_setPort, hv]

/-- `TV` as read: a zero above its 31 bits (R14). -/
theorem setWidth_tv (x : BitVec 31) : x.setWidth 32 = (0 : BitVec 1) ++ x := by
  apply BitVec.eq_of_toNat_eq
  rw [BitVec.toNat_setWidth_of_le (by decide), toNat_append]
  simp

/-- A word of a buffer, read at an offset of the buffer's range: the four bytes from there on
(R42). -/
theorem readOffset_buffer {n m base off : Nat} {s : State} (b : Buf n) (reg : Fin m → Reg)
    (hoff : ∀ w, offsetOf (reg w) = base + 4 * w.val) (hread : ∀ w, readReg s (reg w) = bufWord b w)
    (hbase : base % 4 = 0) (ha : off % 4 = 0) (h : base ≤ off ∧ off < base + 4 * m) :
    readOffset s off =
      byteAt b (off - base) ++ byteAt b (off - base + 1) ++ byteAt b (off - base + 2) ++
        byteAt b (off - base + 3) := by
  have hword : 4 * ((off - base) / 4) = off - base := by omega
  rw [readOffset_of_eq s (reg ⟨(off - base) / 4, by omega⟩) (by rw [hoff]; dsimp only; omega), hread,
    bufWord, hword]
  rfl

/-- A value that either branch of a choice gives under its condition is the choice. -/
theorem eq_ite {α : Type} {p : Prop} [Decidable p] {a b c : α} (hpos : p → a = b)
    (hneg : ¬ p → a = c) : a = if p then b else c :=
  (ite_eq_iff'.2 ⟨fun h => (hpos h).symm, fun h => (hneg h).symm⟩).symm

/-- The aligned offsets the map of R45 gives a word. -/
theorem offsetOf_mapped (r : Reg) :
    offsetOf r < 0x064 ∨ (0x100 ≤ offsetOf r ∧ offsetOf r < 0x2A0) := by
  cases r <;> simp only [offsetOf] <;> omega

/-- Between the words of the map and after them every offset is reserved (R45). -/
theorem regAt_reserved {off : Nat} (ha : off % 4 = 0) (hlow : 0x064 ≤ off)
    (hbuf : ¬ (0x100 ≤ off ∧ off < 0x2A0)) : regAt off = none := by
  cases h : regAt off with
  | none => rfl
  | some r =>
    obtain rfl := offsetOf_of_regAt ha h
    have := offsetOf_mapped r
    omega

/-! ### Writes by offset -/

/-- The writable words are those of the two read-write ranges (R45). -/
theorem Reg.writable_iff (r : Reg) :
    r.writable = true ↔
      (0x008 ≤ offsetOf r ∧ offsetOf r < 0x054) ∨ (0x100 ≤ offsetOf r ∧ offsetOf r < 0x2A0) := by
  cases r <;> simp [Reg.writable, offsetOf] <;> omega

/-- No aligned offset of the two read-write ranges is reserved (R45). -/
theorem regAt_ne_none {off : Nat} (ha : off % 4 = 0)
    (h : (0x008 ≤ off ∧ off < 0x054) ∨ (0x100 ≤ off ∧ off < 0x2A0)) : regAt off ≠ none := by
  have low : ∀ a < 0x054, a % 4 = 0 → regAt a ≠ none := by decide
  obtain hlow | ⟨hlo, hhi⟩ := h
  · exact low off hlow.2 ha
  · rw [regAt, dif_neg (by omega), dif_neg (by omega), dif_neg (by omega)]
    split
    · exact Option.some_ne_none _
    · rw [dif_pos (by omega)]
      exact Option.some_ne_none _

/-- A write at an offset leaves what every other offset reads as (R43). -/
theorem readOffset_writeOffset_other (s : State) {off a : Nat} (v : Word) (hoff : off % 4 = 0)
    (ha : a % 4 = 0) (hne : a ≠ off) : readOffset (writeOffset s off v) a = readOffset s a := by
  obtain hsame | ⟨reg, rfl, hreg⟩ := writeOffset_cases s v hoff
  · rw [hsame]
  · rw [hreg]
    cases hr : regAt a with
    | none => rw [readOffset_reserved _ hr, readOffset_reserved _ hr]
    | some r =>
      obtain rfl := offsetOf_of_regAt ha hr
      rw [readOffset_offsetOf, readOffset_offsetOf]
      exact readReg_writeReg_other s v fun heq => hne (congrArg offsetOf heq)

/-- What an offset reads as after a write to it: a read-write word the value, `TV` its low 31 bits,
a read-only or reserved one what it read as before (R14, R43, R46). -/
theorem readOffset_writeOffset_same (s : State) {off : Nat} (v : Word) (ha : off % 4 = 0) :
    readOffset (writeOffset s off v) off =
      if off = 0x00C then v &&& 0x7FFFFFFF
      else if (0x008 ≤ off ∧ off < 0x054) ∨ (0x100 ≤ off ∧ off < 0x2A0) then v
      else readOffset s off := by
  split
  case isTrue htv =>
    have heq : off = offsetOf .tv := htv
    rw [heq, readOffset_offsetOf, writeOffset_offsetOf, readReg_writeReg_tv]
  case isFalse htv =>
    cases hr : regAt off with
    | none => rw [writeOffset_reserved s v hr, if_neg fun h => regAt_ne_none ha h hr]
    | some r =>
      obtain rfl := offsetOf_of_regAt ha hr
      rw [readOffset_offsetOf, writeOffset_offsetOf, readOffset_offsetOf]
      simp only [← Reg.writable_iff]
      split
      case isTrue hw => exact readReg_writeReg_same s v hw fun h => htv (congrArg offsetOf h)
      case isFalse hw => rw [writeReg_readOnly s v (Bool.not_eq_true _ ▸ hw)]

end Sys2Proof.Machine
end

section
/-! Lists of host writes as runs: the pseudo-commands of R72 write a register word by word. -/

namespace Sys2Proof.Machine

/-- The words of a list written to their offsets, one after the other. -/
def writeOffsets (s : State) (ws : List (Nat × Word)) : State :=
  ws.foldl (fun u w => writeOffset u w.1 w.2) s

/-- A write of the register space does not look at the port. -/
theorem writeOffset_setPort (s : State) (rest : List HostEvent) (a : Option Word) (off : Nat)
    (v : Word) :
    writeOffset { s with host := rest, answer := a } off v =
      { writeOffset s off v with host := rest, answer := a } := by
  unfold writeOffset
  cases regAt off with
  | none => rfl
  | some r => cases r <;> rfl

theorem writeOffsets_setPort (s : State) (rest : List HostEvent) (a : Option Word)
    (ws : List (Nat × Word)) :
    writeOffsets { s with host := rest, answer := a } ws =
      { writeOffsets s ws with host := rest, answer := a } := by
  induction ws generalizing s with
  | nil => rfl
  | cons w ws ih =>
    simp only [writeOffsets, List.foldl_cons, writeOffset_setPort] at ih ⊢
    exact ih _

/-- A run over pending writes, none of them to `CMD`, writes their words in turn (R43, R49). -/
theorem run_writes {s : State} (ws : List (Nat × Word)) (hne : ws ≠ [])
    (hws : ∀ w ∈ ws, w.1 % 4 = 0 ∧ w.1 < Config.windowBytes ∧ w.1 ≠ offsetOf .cmd)
    (h : s.host = ws.map fun w => writeWord w.1 w.2) :
    Host.Core.run Sys2Proof.core ws.length s =
      .next { writeOffsets s ws with host := [], answer := none } := by
  induction ws generalizing s with
  | nil => exact absurd rfl hne
  | cons w ws ih =>
    obtain ⟨ha, hw, hc⟩ := hws w List.mem_cons_self
    rw [List.length_cons, run_succ _ (step_write h ha hw hc), writeOffset_setPort]
    cases ws with
    | nil => rfl
    | cons w' ws =>
      rw [ih (List.cons_ne_nil _ _) (fun x hx => hws x (List.mem_cons_of_mem _ hx)) rfl,
        writeOffsets_setPort]
      rfl

/-! ### The two words of a 64-bit register -/

/-- Both halves written, the high word first, are the whole value (R48). -/
theorem setLowWord_setHighWord (d v : DWord) :
    setLowWord (setHighWord d (highWord v)) (lowWord v) = v :=
  dword_ext (by simp) (by simp)

/-- `wr64` as a run: a write of the high word, then one of the low word (R72). -/
theorem run_wr64 {s : State} {r : Reg64} {v : DWord}
    (h : s.host = (ScriptLine.wr64 r v).accesses) :
    Host.Core.run Sys2Proof.core 2 s =
      .next { writeReg (writeReg s (highReg r) (highWord v)) (lowReg r) (lowWord v) with
        host := [], answer := none } := by
  have haccepted : ∀ x ∈ [highReg r, lowReg r],
      offsetOf x % 4 = 0 ∧ offsetOf x < Config.windowBytes ∧ offsetOf x ≠ offsetOf .cmd := by
    cases r <;> decide
  have hrun := run_writes [(offsetOf (highReg r), highWord v), (offsetOf (lowReg r), lowWord v)]
    (List.cons_ne_nil _ _) (by simpa using haccepted) h
  simpa [writeOffsets] using hrun

/-! ### The words of a buffer -/

/-- The words `f 0 .. f (m - 1)` written to the first `m` words of a buffer. -/
def setBufWords {n : Nat} (b : Buf n) (f : Nat → Word) (m : Nat) : Buf n :=
  (List.range m).foldl (fun c w => setBufWord c w (f w)) b

theorem setBufWords_succ {n : Nat} (b : Buf n) (f : Nat → Word) (m : Nat) :
    setBufWords b f (m + 1) = setBufWord (setBufWords b f m) m (f m) := by
  simp [setBufWords, List.range_succ]

/-- The first `m` words are as written, the bytes after them as before. -/
theorem byteAt_setBufWords {n : Nat} (b : Buf n) (f : Nat → Word) (m i : Nat) :
    byteAt (setBufWords b f m) i =
      if i / 4 < m ∧ i < n then wordByte (f (i / 4)) (i % 4) else byteAt b i := by
  induction m with
  | zero => simp [setBufWords]
  | succ m ih =>
    rw [setBufWords_succ, byteAt_setBufWord, ih]
    by_cases hm : i / 4 = m
    · subst hm
      simp
    · have hlt : i / 4 < m + 1 ↔ i / 4 < m := by omega
      simp only [hm, hlt, false_and, if_false]

/-- A buffer whose words are all written holds what was written. -/
theorem setBufWords_bufWord {n m : Nat} (b c : Buf n) (hn : n = 4 * m) :
    setBufWords c (bufWord b) m = b := by
  apply buf_ext
  intro i hi
  rw [byteAt_setBufWords, if_pos ⟨by omega, hi⟩, wordByte_bufWord b _ (Nat.mod_lt i (by decide)),
    Nat.div_add_mod]

/-- The accesses that write a whole buffer: one for each of its words (R72). -/
theorem writeBytes_toList {n m : Nat} (base : Nat) (b : Buf n) (hn : n = 4 * m) :
    writeBytes base b.toList =
      ((List.range m).map fun w => (base + 4 * w, bufWord b w)).map
        fun w => writeWord w.1 w.2 := by
  have hm : (b.toList.length + 3) / 4 = m := by
    rw [Vector.length_toList]
    omega
  rw [writeBytes, hm, List.map_map]
  rfl

/-- `put c` is a state that holds `c` in the buffer of `m` words at offset `base`: a write of one of
the words is a write of that word of `c`. -/
def BufferAt {n : Nat} (put : Buf n → State) (base m : Nat) : Prop :=
  ∀ w < m, ∀ c v, writeOffset (put c) (base + 4 * w) v = put (setBufWord c w v)

theorem digest_bufferAt (s : State) : BufferAt (fun c => { s with digest := c }) 0x040 5 :=
  fun w hw _ v => writeOffset_offsetOf _ (.digest ⟨w, hw⟩) v

theorem cb_bufferAt (s : State) : BufferAt (fun c => { s with cb := c }) 0x030 2 :=
  fun w hw _ v => writeOffset_offsetOf _ (.cb ⟨w, hw⟩) v

/-- Writes of the first words of a buffer. -/
theorem writeOffsets_buffer {n m base : Nat} {put : Buf n → State} (hput : BufferAt put base m)
    (b : Buf n) (f : Nat → Word) :
    writeOffsets (put b) ((List.range m).map fun w => (base + 4 * w, f w)) =
      put (setBufWords b f m) := by
  induction m with
  | zero => rfl
  | succ m ih =>
    have hinit := ih fun w hw => hput w (by omega)
    simp only [writeOffsets] at hinit ⊢
    rw [List.range_succ, List.map_append, List.foldl_append, hinit, setBufWords_succ]
    exact hput m (by omega) _ _

/-- The accesses that write a whole buffer, as a run. -/
theorem run_writeBuffer {n m base : Nat} {s : State} {put : Buf n → State} {old b : Buf n}
    (hput : BufferAt put base m) (hs : put old = s) (hn : n = 4 * m) (hm : 0 < m)
    (hbase : base % 4 = 0 ∧ 0 < base ∧ base + n ≤ Config.windowBytes)
    (h : s.host = writeBytes base b.toList) :
    Host.Core.run Sys2Proof.core m s = .next { put b with host := [], answer := none } := by
  subst hs
  obtain ⟨ha, hpos, hend⟩ := hbase
  have hne : ((List.range m).map fun w => (base + 4 * w, bufWord b w)) ≠ [] := by
    simpa using hm.ne'
  have haccepted : ∀ w ∈ (List.range m).map fun w => (base + 4 * w, bufWord b w),
      w.1 % 4 = 0 ∧ w.1 < Config.windowBytes ∧ w.1 ≠ offsetOf .cmd := by
    intro w hw
    obtain ⟨i, hi, rfl⟩ := List.mem_map.1 hw
    rw [List.mem_range] at hi
    simp only [offsetOf]
    omega
  have hrun := run_writes _ hne haccepted (h.trans (writeBytes_toList base b hn))
  rwa [List.length_map, List.length_range, writeOffsets_buffer hput,
    setBufWords_bufWord b old hn] at hrun

end Sys2Proof.Machine
end

section
/-! The statements about the host's accesses that this part settles, each from the lemmas above. -/

namespace Sys2Proof.Machine

/-- Settles O17: that all pending events are accepted is an invariant under which a step answers. -/
theorem politeHostNeverStopsTheCore : Obligations.PoliteHostNeverStopsTheCore :=
  run_of_invariant fun _ => step_polite

/-- Settles O10: no event changes what is pending behind it. -/
theorem stepTakesTheFirstEvent : Obligations.StepTakesTheFirstEvent := by
  intro s t e rest hhost ht
  obtain ⟨-, u, hu, hpending⟩ | ⟨-, r, hr⟩ := step_event_cases hhost
  · cases ht.symm.trans hu
    exact hpending
  · cases ht.symm.trans hr

/-- Settles O11: an event is performed if it is accepted and refused if not. -/
theorem onlyAlignedWordAccessesAreAccepted : Obligations.OnlyAlignedWordAccessesAreAccepted := by
  intro s rest
  refine ⟨fun off width hhost => ?_, fun off width v hhost => ?_, fun hhost => ?_⟩
  · rw [← accepted_read]
    exact step_event_iff hhost
  · rw [← accepted_write (v := v)]
    exact step_event_iff hhost
  · exact ⟨_, step_reset hhost⟩

/-- Settles O12, clause by clause of the map: each names a word by its offset, and what is left is
`CMD` or reserved. -/
theorem hostReadFollowsTheMap : Obligations.HostReadFollowsTheMap := by
  intro s rest off hhost ha hw word
  exact step_read hhost ha (Nat.lt_succ_of_le hw) <|
    eq_ite (readOffset_of_eq s .status) fun _ =>
    eq_ite (readOffset_of_eq s .digits) fun _ =>
    eq_ite (fun h => (readOffset_of_eq s .tv h).trans (setWidth_tv s.tv)) fun _ =>
    eq_ite (readOffset_of_eq s .ctrHi) fun _ =>
    eq_ite (readOffset_of_eq s .ctrLo) fun _ =>
    eq_ite (readOffset_of_eq s .timeHi) fun _ =>
    eq_ite (readOffset_of_eq s .timeLo) fun _ =>
    eq_ite (readOffset_of_eq s .epochHi) fun _ =>
    eq_ite (readOffset_of_eq s .epochLo) fun _ =>
    eq_ite (readOffset_of_eq s .stepHi) fun _ =>
    eq_ite (readOffset_of_eq s .stepLo) fun _ =>
    eq_ite (readOffset_buffer s.cb .cb (fun _ => rfl) (fun _ => rfl) rfl ha) fun _ =>
    eq_ite (readOffset_of_eq s .textLen) fun _ =>
    eq_ite (readOffset_of_eq s .keyLen) fun _ =>
    eq_ite (readOffset_buffer s.digest .digest (fun _ => rfl) (fun _ => rfl) rfl ha) fun _ =>
    eq_ite (readOffset_of_eq s .codeLen) fun _ =>
    eq_ite (readOffset_buffer s.code .code (fun _ => rfl) (fun _ => rfl) rfl ha) fun _ =>
    eq_ite (readOffset_buffer s.text .text (fun _ => rfl) (fun _ => rfl) rfl ha) fun _ =>
    eq_ite (readOffset_buffer s.key .key (fun _ => rfl) (fun _ => rfl) rfl ha) fun _ => by
      by_cases hcmd : off = 0x000
      · exact readOffset_of_eq s .cmd hcmd
      · exact readOffset_reserved s (regAt_reserved ha (by omega) (by omega))

/-- Settles O13: the command at `CMD`, and elsewhere the read of each word after the write. -/
theorem hostWriteChangesOnlyItsWord : Obligations.HostWriteChangesOnlyItsWord := by
  intro s rest off v hhost ha hw
  refine ⟨fun hcmd => ?_, fun hcmd => ?_⟩
  · subst hcmd
    exact step_command hhost
  obtain ⟨hpending, hanswer, hstatus⟩ :=
    writeOffset_port { s with host := rest, answer := none } off v
  refine ⟨_, step_write hhost ha (Nat.lt_succ_of_le hw) hcmd, hpending, hanswer, hstatus,
    fun a haa _ hne => ?_, ?_⟩
  · rw [readOffset_writeOffset_other _ v ha haa hne, readOffset_setPort]
  · rw [readOffset_writeOffset_same _ v ha, readOffset_setPort]

/-- Settles O55: two halves are a 64-bit register, and the words of a buffer are the buffer. -/
theorem wideWritesSetTheWholeRegister : Obligations.WideWritesSetTheWholeRegister := by
  intro s
  refine ⟨fun v h => ?_, fun v h => ?_, fun v h => ?_, fun v h => ?_, fun b h => ?_, fun b h => ?_⟩
  · simp only [run_wr64 h, highReg, lowReg, writeReg, setLowWord_setHighWord]
  · simp only [run_wr64 h, highReg, lowReg, writeReg, setLowWord_setHighWord]
  · simp only [run_wr64 h, highReg, lowReg, writeReg, setLowWord_setHighWord]
  · simp only [run_wr64 h, highReg, lowReg, writeReg, setLowWord_setHighWord]
  · exact run_writeBuffer (digest_bufferAt s) (old := s.digest) rfl rfl (by decide) (by decide) h
  · exact run_writeBuffer (cb_bufferAt s) (old := s.cb) rfl rfl (by decide) (by decide) h

end Sys2Proof.Machine
end

section
/-! The command word as its three fields (R60), and decoding as the inverse of encoding (R66): what
a word decodes to follows from the encodings of the commands alone. -/

namespace Sys2Proof

/-! ### The fields of a word -/

theorem toNat_opField (w : Word) : (opField w).toNat = w.toNat % 256 := by
  simp [opField]

theorem toNat_immField (w : Word) : (immField w).toNat = w.toNat / 256 % 256 := by
  simp [immField, Nat.shiftRight_eq_div_pow]

theorem toNat_rsvField (w : Word) : (rsvField w).toNat = w.toNat / 65536 := by
  have := w.isLt
  simp only [rsvField, BitVec.extractLsb'_toNat, Nat.shiftRight_eq_div_pow]
  omega

/-- A word is its three fields side by side (R60). -/
theorem append_fields (w : Word) : rsvField w ++ immField w ++ opField w = w := by
  apply BitVec.eq_of_toNat_eq
  simp only [Machine.toNat_append, toNat_rsvField, toNat_immField, toNat_opField]
  omega

/-- Fields side by side are the fields of the word they make. -/
theorem fields_append (r : BitVec 16) (m o : BitVec 8) :
    rsvField (r ++ m ++ o) = r ∧ immField (r ++ m ++ o) = m ∧ opField (r ++ m ++ o) = o := by
  have := m.isLt
  have := o.isLt
  refine ⟨?_, ?_, ?_⟩ <;> apply BitVec.eq_of_toNat_eq <;>
    simp only [toNat_rsvField, toNat_immField, toNat_opField, Machine.toNat_append] <;> omega

@[simp] theorem rsvField_encode (i : Instr) : rsvField (encode i) = 0 := (fields_append _ _ _).1

@[simp] theorem immField_encode (i : Instr) : immField (encode i) = immediateOf i :=
  (fields_append _ _ _).2.1

@[simp] theorem opField_encode (i : Instr) : opField (encode i) = opcodeOf i :=
  (fields_append _ _ _).2.2

/-- A word spells a command when its fields are those of the command. -/
theorem encode_eq_iff {i : Instr} {w : Word} :
    encode i = w ↔ rsvField w = 0 ∧ immField w = immediateOf i ∧ opField w = opcodeOf i := by
  constructor
  · rintro rfl
    simp
  · rintro ⟨hrsv, himm, hop⟩
    rw [← append_fields w, hrsv, himm, hop, encode]

/-! ### The opcode map -/

theorem mem_opcodeMapZ_of_lookup {op : BitVec 8} {i : Instr} (h : opcodeMapZ.lookup op = some i) :
    (op, i) ∈ opcodeMapZ := by
  obtain ⟨l, l', hmap, -⟩ := List.lookup_eq_some_iff.1 h
  rw [hmap]
  exact List.mem_append_right l List.mem_cons_self

/-- A row of format Z is a command without operand, under its own opcode (R61, R63). -/
theorem opcodeMapZ_row {op : BitVec 8} {i : Instr} (h : (op, i) ∈ opcodeMapZ) :
    i.wellFormed = true ∧ immediateOf i = 0 ∧ opcodeOf i = op := by
  have hrows : ∀ p ∈ opcodeMapZ,
      p.2.wellFormed = true ∧ immediateOf p.2 = 0 ∧ opcodeOf p.2 = p.1 := by decide
  exact hrows _ h

/-- Every command but `CTRDEC` has a row of format Z, and no operand (R61, R63). -/
theorem eq_ctrdec_or_row (i : Instr) :
    (∃ n, i = .ctrdec n) ∨
      opcodeOf i ≠ ctrdecOpcode ∧ opcodeMapZ.lookup (opcodeOf i) = some i ∧ immediateOf i = 0 := by
  cases i with
  | ctrdec n => exact .inl ⟨n, rfl⟩
  | _ => exact .inr (by decide)

/-- The opcodes of the map as numbers: that of `CTRDEC` and those of the rows of format Z (R63). -/
theorem mem_opcodes_iff (op : BitVec 8) :
    op.toNat ∈ [0x00, 0x01, 0x02, 0x03, 0x04, 0x05, 0x06, 0x07, 0x08, 0x10, 0x11, 0x1F] ↔
      op = ctrdecOpcode ∨ opcodeMapZ.lookup op ≠ none := by
  have hkeys : opcodeMapZ.lookup op ≠ none ↔ op ∈ opcodeMapZ.map Prod.fst := by
    simp [List.lookup_eq_none_iff]
  have hperm : ((ctrdecOpcode :: opcodeMapZ.map Prod.fst).map BitVec.toNat).Perm
      [0x00, 0x01, 0x02, 0x03, 0x04, 0x05, 0x06, 0x07, 0x08, 0x10, 0x11, 0x1F] := by decide
  rw [← hperm.mem_iff, List.mem_map_of_injective fun _ _ => BitVec.eq_of_toNat_eq, List.mem_cons,
    hkeys]

/-- The immediate of a word is an operand `CTRDEC` can carry (R62, R65). -/
theorem ctrdec_immField (w : Word) :
    (Instr.ctrdec (immField w).toNat).wellFormed = true ∧
      immediateOf (.ctrdec (immField w).toNat) = immField w := by
  have := (immField w).isLt
  exact ⟨decide_eq_true (by omega), by simp [immediateOf]⟩

/-! ### Decoding -/

/-- What the encoding of a well-formed command decodes to (R66). -/
theorem decode_encode {i : Instr} (h : i.wellFormed = true) : decode (encode i) = .ok i := by
  have hrsv : ¬rsvField (encode i) ≠ 0 := by simp
  obtain ⟨n, rfl⟩ | ⟨hop, hrow, himm⟩ := eq_ctrdec_or_row i
  · have hn : n ≤ 255 := of_decide_eq_true h
    have hop : opcodeOf (.ctrdec n) = ctrdecOpcode := rfl
    have hval : (immediateOf (.ctrdec n)).toNat = n := Nat.mod_eq_of_lt (by omega)
    rw [decode, if_neg hrsv, opField_encode, if_pos hop, immField_encode, hval]
  · rw [decode, if_neg hrsv, opField_encode, if_neg hop, hrow, immField_encode, himm]
    rfl

/-- The five ways of `decode` (R66): the three kinds of illegal word, and the two formats. -/
theorem decode_cases (w : Word) :
    (rsvField w ≠ 0 ∧ decode w = .error .reservedNotZero) ∨
    (opField w ≠ ctrdecOpcode ∧ opcodeMapZ.lookup (opField w) = none ∧ rsvField w = 0 ∧
      decode w = .error .unassignedOpcode) ∨
    (opField w ≠ ctrdecOpcode ∧ immField w ≠ 0 ∧ rsvField w = 0 ∧
      decode w = .error .immediateNotZero) ∨
    (opField w = ctrdecOpcode ∧ rsvField w = 0 ∧
      decode w = .ok (.ctrdec (immField w).toNat)) ∨
    ∃ i, opcodeMapZ.lookup (opField w) = some i ∧ immField w = 0 ∧ rsvField w = 0 ∧
      decode w = .ok i := by
  unfold decode
  split
  next hrsv => exact .inl ⟨hrsv, rfl⟩
  next hrsv =>
    have hrsv := not_not.1 hrsv
    split
    next hop => exact .inr (.inr (.inr (.inl ⟨hop, hrsv, rfl⟩)))
    next hop =>
      split
      next hrow => exact .inr (.inl ⟨hop, hrow, hrsv, rfl⟩)
      next i hrow =>
        split
        next himm => exact .inr (.inr (.inl ⟨hop, himm, hrsv, rfl⟩))
        next himm => exact .inr (.inr (.inr (.inr ⟨i, hrow, not_not.1 himm, hrsv, rfl⟩)))

/-- What a word decodes to spells that word, no bit of it dropped (R66). -/
theorem encode_of_decode {w : Word} {i : Instr} (h : decode w = .ok i) :
    i.wellFormed = true ∧ encode i = w := by
  rw [encode_eq_iff]
  obtain ⟨-, hd⟩ | ⟨-, -, -, hd⟩ | ⟨-, -, -, hd⟩ | ⟨hop, hrsv, hd⟩ | ⟨j, hrow, himm, hrsv, hd⟩ :=
    decode_cases w <;> cases h.symm.trans hd
  · obtain ⟨hwf, himm⟩ := ctrdec_immField w
    exact ⟨hwf, hrsv, himm.symm, hop⟩
  · obtain ⟨hwf, hzero, hcode⟩ := opcodeMapZ_row (mem_opcodeMapZ_of_lookup hrow)
    exact ⟨hwf, hrsv, himm.trans hzero.symm, hcode.symm⟩

/-- A word decodes to the well-formed command it spells, and to no other (R66). -/
theorem decode_eq_ok_iff {w : Word} {i : Instr} :
    decode w = .ok i ↔ i.wellFormed = true ∧ encode i = w :=
  ⟨encode_of_decode, fun ⟨hwf, hw⟩ => hw ▸ decode_encode hwf⟩

/-- The illegal words, by their fields (R64). -/
theorem decode_eq_error_iff {w : Word} :
    (∃ e, decode w = .error e) ↔ rsvField w ≠ 0 ∨
      opField w ≠ ctrdecOpcode ∧ (opcodeMapZ.lookup (opField w) = none ∨ immField w ≠ 0) := by
  obtain ⟨hrsv, hd⟩ | ⟨hop, hrow, -, hd⟩ | ⟨hop, himm, -, hd⟩ | ⟨hop, hrsv, hd⟩ |
    ⟨i, hrow, himm, hrsv, hd⟩ := decode_cases w
  · exact iff_of_true ⟨_, hd⟩ (.inl hrsv)
  · exact iff_of_true ⟨_, hd⟩ (.inr ⟨hop, .inl hrow⟩)
  · exact iff_of_true ⟨_, hd⟩ (.inr ⟨hop, .inr himm⟩)
  · simp [hd, hrsv, hop]
  · simp [hd, hrsv, hrow, himm]

/-- An illegal word sets the status and nothing else, whatever makes it illegal (R64). -/
theorem Machine.runCommandWord_of_error {w : Word} {e : IllegalWord} (h : decode w = .error e)
    (s : Machine.State) :
    Machine.runCommandWord w s = .next { s with status := .illegalCommand } := by
  rw [Machine.runCommandWord, h]
  rfl

/-- Two well-formed commands have two words. -/
theorem encode_inj {i j : Instr} (hi : i.wellFormed = true) (hj : j.wellFormed = true)
    (h : encode i = encode j) : i = j := by
  have hdec := decode_eq_ok_iff.2 ⟨hi, h⟩
  rw [decode_eq_ok_iff.2 ⟨hj, rfl⟩] at hdec
  exact (Except.ok.inj hdec).symm

/-! ### Matches and masks -/

/-- In format Z the mask is the whole word and the match is the encoding (R61, R63). -/
theorem decode_eq_ok_iff_mask {i : Instr} (hi : i.wellFormed = true) {w : Word} :
    decode w = .ok i ↔ w &&& 0xFFFFFFFF = encode i := by
  have hmask : w &&& 0xFFFFFFFF = w := BitVec.and_allOnes
  rw [decode_eq_ok_iff, hmask, eq_comm (a := w)]
  exact and_iff_right hi

/-- The mask of format N clears the immediate (R62, R63). -/
theorem and_formatN_mask (w : Word) :
    w &&& 0xFFFF00FF = rsvField w ++ (0 : BitVec 8) ++ opField w := by
  calc w &&& 0xFFFF00FF
      = (rsvField w ++ immField w ++ opField w) &&&
          (BitVec.allOnes 16 ++ (0 : BitVec 8) ++ BitVec.allOnes 8) := by
        rw [append_fields]
        rfl
    _ = rsvField w ++ (0 : BitVec 8) ++ opField w := by
        rw [BitVec.and_append, BitVec.and_append, BitVec.and_allOnes, BitVec.and_allOnes]
        exact congrArg (rsvField w ++ · ++ opField w) BitVec.and_zero

/-- The words of `CTRDEC` are those of its opcode with `RSV` zero, whatever the immediate (R62). -/
theorem exists_decode_ctrdec_iff {w : Word} :
    (∃ n, decode w = .ok (.ctrdec n)) ↔ rsvField w = 0 ∧ opField w = ctrdecOpcode := by
  constructor
  · rintro ⟨n, h⟩
    obtain ⟨hrsv, -, hop⟩ := encode_eq_iff.1 (encode_of_decode h).2
    exact ⟨hrsv, hop⟩
  · rintro ⟨hrsv, hop⟩
    obtain ⟨hwf, himm⟩ := ctrdec_immField w
    exact ⟨_, decode_eq_ok_iff.2 ⟨hwf, encode_eq_iff.2 ⟨hrsv, himm.symm, hop⟩⟩⟩

theorem exists_decode_ctrdec_iff_mask {w : Word} :
    (∃ n, decode w = .ok (.ctrdec n)) ↔ w &&& 0xFFFF00FF = 0x00000004 := by
  have hmatch : (0x00000004 : Word) = encode (.ctrdec 0) := rfl
  obtain ⟨hrsv, himm, hop⟩ := fields_append (rsvField w) 0 (opField w)
  rw [exists_decode_ctrdec_iff, and_formatN_mask, hmatch, eq_comm (b := encode _), encode_eq_iff,
    hrsv, himm, hop]
  exact and_congr_right fun _ => (and_iff_right rfl).symm

/-- The word of a command as a number (R60). -/
theorem toNat_encode (i : Instr) :
    (encode i).toNat = (immediateOf i).toNat * 256 + (opcodeOf i).toNat := by
  simp only [encode, Machine.toNat_append]
  simp

/-! ### The legal words -/

/-- The commands a word can spell: the eleven of format Z, and `CTRDEC` with each immediate (R66). -/
def legalInstrs : List Instr := opcodeMapZ.map Prod.snd ++ (List.range 256).map .ctrdec

theorem mem_legalInstrs {i : Instr} : i ∈ legalInstrs ↔ i.wellFormed = true := by
  rw [legalInstrs, List.mem_append]
  constructor
  · rintro (h | h)
    · obtain ⟨p, hp, rfl⟩ := List.mem_map.1 h
      exact (opcodeMapZ_row hp).1
    · obtain ⟨n, hn, rfl⟩ := List.mem_map.1 h
      exact decide_eq_true (Nat.le_of_lt_succ (List.mem_range.1 hn))
  · intro h
    obtain ⟨n, rfl⟩ | ⟨-, hrow, -⟩ := eq_ctrdec_or_row i
    · exact .inr (List.mem_map_of_mem (List.mem_range.2 (Nat.lt_succ_of_le (of_decide_eq_true h))))
    · exact .inl (List.mem_map_of_mem (mem_opcodeMapZ_of_lookup hrow))

theorem nodup_legalInstrs : legalInstrs.Nodup := by
  refine List.nodup_append.2 ⟨by decide, List.nodup_range.map fun _ _ => Instr.ctrdec.inj, ?_⟩
  intro i hi j hj
  obtain ⟨n, -, rfl⟩ := List.mem_map.1 hj
  have hz : ∀ i ∈ opcodeMapZ.map Prod.snd, opcodeOf i ≠ ctrdecOpcode := by decide
  rintro rfl
  exact hz _ hi rfl

end Sys2Proof
end

section
/-! `wrtext` and `wrkey` as runs (R72): the words of a list of bytes, written to a buffer from its
first word on, and then the length register. -/

namespace Sys2Proof.Machine

/-! ### A list of bytes in a buffer -/

/-- A buffer with a list of bytes written to it in whole words, zeros up to the end of the last word
(R72). -/
def loadBytes {n : Nat} (b : Buf n) (bs : List Byte) : Buf n :=
  setBufWords b (bufWord (fillBuf n bs)) ((bs.length + 3) / 4)

/-- A list that fits the buffer, byte by byte: zeros past its end, in the buffer and outside. -/
theorem byteAt_fillBuf_of_length_le {n : Nat} {bs : List Byte} (h : bs.length ≤ n) (i : Nat) :
    byteAt (fillBuf n bs) i = bs.getD i 0 := by
  rw [byteAt_fillBuf]
  split
  · rfl
  next hi => exact (List.getD_eq_default _ _ (h.trans (Nat.le_of_not_lt hi))).symm

theorem byteAt_loadBytes {n : Nat} (b : Buf n) {bs : List Byte} (h : bs.length ≤ n) {i : Nat}
    (hi : i < n) :
    byteAt (loadBytes b bs) i = if i < 4 * ((bs.length + 3) / 4) then bs.getD i 0 else byteAt b i := by
  have hword : i / 4 < (bs.length + 3) / 4 ∧ i < n ↔ i < 4 * ((bs.length + 3) / 4) := by omega
  rw [loadBytes, byteAt_setBufWords, wordByte_bufWord _ _ (Nat.mod_lt i (by decide)),
    Nat.div_add_mod, byteAt_fillBuf_of_length_le h]
  exact if_congr hword rfl rfl

/-- The buffer begins with the bytes, the filler of the last word is zero, the rest is as before. -/
theorem loadBytes_bytes {n : Nat} (b : Buf n) {bs : List Byte} (h : bs.length ≤ n) (hn : n % 4 = 0) :
    (∀ i < bs.length, byteAt (loadBytes b bs) i = bs.getD i 0) ∧
      (∀ i, bs.length ≤ i → i < 4 * ((bs.length + 3) / 4) → byteAt (loadBytes b bs) i = 0) ∧
      ∀ i, 4 * ((bs.length + 3) / 4) ≤ i → i < n → byteAt (loadBytes b bs) i = byteAt b i := by
  refine ⟨fun i hi => ?_, fun i hi hfill => ?_, fun i hi hlt => ?_⟩
  · rw [byteAt_loadBytes b h (by omega), if_pos (by omega)]
  · rw [byteAt_loadBytes b h (by omega), if_pos hfill, List.getD_eq_default _ _ hi]
  · rw [byteAt_loadBytes b h hlt, if_neg (by omega)]

/-! ### The accesses as a run -/

theorem text_bufferAt (s : State) {m : Nat} (hm : m ≤ 64) :
    BufferAt (fun c => { s with text := c }) 0x100 m :=
  fun w hw _ v => writeOffset_offsetOf _ (.text ⟨w, by omega⟩) v

theorem key_bufferAt (s : State) {m : Nat} (hm : m ≤ 40) :
    BufferAt (fun c => { s with key := c }) 0x200 m :=
  fun w hw _ v => writeOffset_offsetOf _ (.key ⟨w, by omega⟩) v

/-- The words a list of bytes reaches into, each with its offset in a buffer at `base` (R72). -/
def byteWords (n base : Nat) (bs : List Byte) : List (Nat × Word) :=
  (List.range ((bs.length + 3) / 4)).map fun w => (base + 4 * w, bufWord (fillBuf n bs) w)

/-- The accesses that write a list of bytes: one for each word it reaches into (R72). -/
theorem writeBytes_eq_byteWords {n : Nat} (base : Nat) {bs : List Byte} (h : bs.length ≤ n) :
    writeBytes base bs = (byteWords n base bs).map fun w => writeWord w.1 w.2 := by
  simp only [writeBytes, byteWords, List.map_map, Function.comp_def, bufWord,
    byteAt_fillBuf_of_length_le h]

/-- A write of a word of the map other than `CMD` is accepted and is no command (R41, R45). -/
theorem offsetOf_plain {r : Reg} (hr : r ≠ .cmd) :
    offsetOf r % 4 = 0 ∧ offsetOf r < Config.windowBytes ∧ offsetOf r ≠ offsetOf .cmd := by
  obtain ⟨ha, hw⟩ := offsetOf_accepted r
  exact ⟨ha, Nat.lt_succ_of_le hw, fun hc => hr (offsetOf_inj hc)⟩

/-- So is one of a word of a buffer inside the window. -/
theorem byteWords_plain {n base : Nat} {bs : List Byte} (h : bs.length ≤ n)
    (hbase : base % 4 = 0 ∧ 0 < base ∧ base + n ≤ Config.windowBytes) :
    ∀ w ∈ byteWords n base bs,
      w.1 % 4 = 0 ∧ w.1 < Config.windowBytes ∧ w.1 ≠ offsetOf .cmd := by
  intro w hw
  obtain ⟨i, hi, rfl⟩ := List.mem_map.1 hw
  rw [List.mem_range] at hi
  simp only [offsetOf]
  omega

theorem writeOffsets_concat (s : State) (ws : List (Nat × Word)) (w : Nat × Word) :
    writeOffsets s (ws ++ [w]) = writeOffset (writeOffsets s ws) w.1 w.2 := by
  simp [writeOffsets]

/-- Writes of a list of bytes to a buffer and of one more word `r`, as a run. -/
theorem run_writeBytes_writeWord {n base : Nat} {s : State} {put : Buf n → State} {old : Buf n}
    {bs : List Byte} {r : Reg} {v : Word} (hput : BufferAt put base ((bs.length + 3) / 4))
    (hs : put old = s) (hbs : bs.length ≤ n)
    (hbase : base % 4 = 0 ∧ 0 < base ∧ base + n ≤ Config.windowBytes) (hr : r ≠ .cmd)
    (h : s.host = writeBytes base bs ++ [writeWord (offsetOf r) v]) :
    Host.Core.run Sys2Proof.core s.host.length s =
      .next { writeReg (put (loadBytes old bs)) r v with host := [], answer := none } := by
  have hhost : s.host =
      (byteWords n base bs ++ [(offsetOf r, v)]).map fun w => writeWord w.1 w.2 := by
    rw [h, writeBytes_eq_byteWords base hbs, List.map_append]
    rfl
  have hplain : ∀ w ∈ byteWords n base bs ++ [(offsetOf r, v)],
      w.1 % 4 = 0 ∧ w.1 < Config.windowBytes ∧ w.1 ≠ offsetOf .cmd :=
    List.forall_mem_append.2
      ⟨byteWords_plain hbs hbase, List.forall_mem_singleton.2 (offsetOf_plain hr)⟩
  have hwritten : writeOffsets s (byteWords n base bs ++ [(offsetOf r, v)]) =
      writeReg (put (loadBytes old bs)) r v := by
    have hbytes : writeOffsets s (byteWords n base bs) = put (loadBytes old bs) :=
      hs ▸ writeOffsets_buffer hput old _
    rw [writeOffsets_concat, hbytes, writeOffset_offsetOf]
  rw [← hwritten, ← run_writes _ (by simp) hplain hhost, hhost, List.length_map]

/-- A length up to the capacity of a buffer fits its length register. -/
theorem toNat_ofNat_length {bs : List Byte} (h : bs.length ≤ 256) :
    (BitVec.ofNat 32 bs.length).toNat = bs.length :=
  Nat.mod_eq_of_lt (by omega)

end Sys2Proof.Machine
end

section
/-! The statements about the encoding, each from the lemmas above. -/

namespace Sys2Proof

/-- Settles O1: a word decodes to the well-formed command it spells. -/
theorem decodeEncodeAgree : Obligations.DecodeEncodeAgree :=
  ⟨fun _ => decode_encode, fun _ _ => encode_of_decode⟩

/-- Settles O2: each match is an encoding, and the mask of format N clears the immediate. -/
theorem decodeFollowsOpcodeMap : Obligations.DecodeFollowsOpcodeMap := fun _ =>
  ⟨decode_eq_ok_iff_mask rfl, decode_eq_ok_iff_mask rfl, decode_eq_ok_iff_mask rfl,
    decode_eq_ok_iff_mask rfl, exists_decode_ctrdec_iff_mask, decode_eq_ok_iff_mask rfl,
    decode_eq_ok_iff_mask rfl, decode_eq_ok_iff_mask rfl, decode_eq_ok_iff_mask rfl,
    decode_eq_ok_iff_mask rfl, decode_eq_ok_iff_mask rfl, decode_eq_ok_iff_mask rfl⟩

/-- Settles O3: the word of `CTRDEC n` as a number. -/
theorem ctrdecImmediateIsBits15To8 : Obligations.CtrdecImmediateIsBits15To8 := by
  intro w n
  have hnum (hn : n ≤ 255) : (encode (.ctrdec n)).toNat = n * 256 + 0x04 := by
    rw [toNat_encode, immediateOf, opcodeOf, BitVec.toNat_ofNat, Nat.mod_eq_of_lt (by omega)]
    rfl
  rw [decode_eq_ok_iff]
  constructor
  · rintro ⟨hwf, rfl⟩
    have hn : n ≤ 255 := of_decide_eq_true hwf
    exact ⟨hnum hn, hn⟩
  · rintro ⟨hw, hn⟩
    exact ⟨decide_eq_true hn, BitVec.eq_of_toNat_eq ((hnum hn).trans hw.symm)⟩

/-- Settles O4: the tests of `decode` as tests of the word's numbers. -/
theorem illegalWordsReportIllegalCommand : Obligations.IllegalWordsReportIllegalCommand := by
  intro w op imm map illegal
  have hiff : (∃ e, decode w = .error e) ↔ illegal := by
    have hrsv : rsvField w ≠ 0 ↔ w.toNat / 65536 ≠ 0 := by
      rw [Ne, ← BitVec.toNat_inj, toNat_rsvField]
      rfl
    have himm : immField w ≠ 0 ↔ imm ≠ 0 := by
      rw [Ne, ← BitVec.toNat_inj, toNat_immField]
      rfl
    have hop : opField w = ctrdecOpcode ↔ op = 0x04 := by
      rw [← BitVec.toNat_inj, toNat_opField]
      rfl
    have hmap : op ∈ map ↔ opField w = ctrdecOpcode ∨ opcodeMapZ.lookup (opField w) ≠ none := by
      rw [← mem_opcodes_iff, toNat_opField]
    rw [decode_eq_error_iff, hrsv, himm]
    show _ ↔ _ ∨ op ∉ map ∨ (op ∈ map ∧ op ≠ 0x04 ∧ imm ≠ 0)
    rw [hmap, hop]
    tauto
  refine ⟨hiff, fun s hillegal => ?_⟩
  obtain ⟨e, he⟩ := hiff.2 hillegal
  exact Machine.runCommandWord_of_error he s

/-- Settles O5: the words of the commands a word can spell. -/
theorem exactlyLegalWords267 : Obligations.ExactlyLegalWords267 := by
  refine ⟨legalInstrs.map encode, ?_, nodup_legalInstrs.map_on fun i hi j hj => ?_, fun w => ?_⟩
  · simp [legalInstrs, opcodeMapZ]
  · exact encode_inj (mem_legalInstrs.1 hi) (mem_legalInstrs.1 hj)
  · simp only [List.mem_map, mem_legalInstrs, decode_eq_ok_iff]

/-- Settles O6, word by word. -/
theorem wordsOfTheManualDecode : Obligations.WordsOfTheManualDecode := by
  unfold Obligations.WordsOfTheManualDecode
  decide

/-- Settles O53: a run of writes to `TEXT` and then `TEXTLEN`. -/
theorem wrtextLoadsTheText : Obligations.WrtextLoadsTheText := by
  intro s cs hlen h
  exact ⟨_,
    Machine.run_writeBytes_writeWord (Machine.text_bufferAt s (by omega)) (old := s.text) rfl hlen
      (by decide) (by decide) h,
    rfl, Machine.toNat_ofNat_length hlen, Machine.loadBytes_bytes s.text hlen rfl⟩

/-- Settles O54: a run of writes to `KEY` and then `KEYLEN`. -/
theorem wrkeyLoadsTheKey : Obligations.WrkeyLoadsTheKey := by
  intro s bs hlen h
  exact ⟨_,
    Machine.run_writeBytes_writeWord (Machine.key_bufferAt s (by omega)) (old := s.key) rfl hlen
      (by decide) (by decide) h,
    rfl, Machine.toNat_ofNat_length (by omega), Machine.loadBytes_bytes s.key hlen rfl⟩

end Sys2Proof
end

section
/-! The bytes of a text one by one, and what the two decoders share: the values of the characters,
packed into a key (R83, R86). -/

namespace Sys2Proof.Machine

/-! ### The characters of a text -/

/-- The characters `TEXTLEN` counts, by their index (R20). -/
theorem State.textChars_eq {s : State} (h : s.textLen.toNat ≤ 256) :
    s.textChars = (List.range s.textLen.toNat).map (byteAt s.text) := by
  apply List.ext_getElem
  · simp [State.textChars, length_firstBytes, h]
  · intro i hi _
    have hlt : i < s.textLen.toNat ∧ i < 256 := by
      simpa [State.textChars, length_firstBytes] using hi
    simp [State.textChars, firstBytes, byteAt_of_lt, hlt]

/-- A text with a character that has no value, by the character's index. -/
theorem valuesOf_textChars_error {α : Type} {val : Byte → Option α} {s : State} {i : Nat}
    (hn : s.textLen.toNat ≤ 256) (hi : i < s.textLen.toNat) (hval : val (byteAt s.text i) = none) :
    valuesOf val s.textChars = .error .invalidFormat := by
  refine valuesOf_eq_error val ?_ hval
  rw [State.textChars_eq hn]
  exact List.mem_map_of_mem (List.mem_range.2 hi)

/-- A text all of whose characters have values, by the characters' indices. -/
theorem valuesOf_textChars_ok {α : Type} {val : Byte → Option α} {s : State} {vs : List α} {d : α}
    (hn : s.textLen.toNat ≤ 256) (hlen : vs.length = s.textLen.toNat)
    (hval : ∀ i < s.textLen.toNat, val (byteAt s.text i) = some (vs.getD i d)) :
    valuesOf val s.textChars = .ok vs := by
  rw [valuesOf_eq_ok, State.textChars_eq hn, List.map_map]
  apply List.ext_getElem
  · simp [hlen]
  · intro i hi hvs
    rw [List.length_map, List.length_range] at hi
    rw [List.length_map] at hvs
    simp [hval i hi, hvs]

/-! ### What the decoders share -/

/-- The part common to `DECB32` and `DECHEX`: the values of the text's characters, packed into a
key that must not be empty (R83, R86). -/
def decodeText {α : Type} (val : Byte → Option α) (pack : List α → List Byte) (s : State) :
    Except Status State :=
  valuesOf val s.textChars >>= fun vs =>
    if (pack vs).length = 0 then .error .invalidKey else .ok (s.loadKey (pack vs))

theorem exec_decb32_of_le {s : State} (hn : s.textLen.toNat ≤ 256) :
    exec .decb32 s = conclude s (decodeText b32val b32decode s) := by
  rw [exec_decb32, decb32_eq, if_neg (Nat.not_lt.2 hn), decodeText]

theorem exec_dechex_of_even {s : State} (hn : s.textLen.toNat ≤ 256)
    (heven : s.textLen.toNat % 2 = 0) :
    exec .dechex s = conclude s (decodeText hexval hexPairs s) := by
  rw [exec_dechex, dechex_eq, if_neg (Nat.not_lt.2 hn), if_neg (by omega), decodeText]

/-- The capacity is checked before anything else (R83, R86). -/
theorem exec_decb32_of_long {s : State} (hn : 256 < s.textLen.toNat) :
    exec .decb32 s = .next (s.raise .capacityExceeded) := by
  rw [exec_decb32, decb32_eq, if_pos hn, conclude_error]

theorem exec_dechex_of_long {s : State} (hn : 256 < s.textLen.toNat) :
    exec .dechex s = .next (s.raise .capacityExceeded) := by
  rw [exec_dechex, dechex_eq, if_pos hn, conclude_error]

theorem exec_dechex_of_odd {s : State} (hn : s.textLen.toNat ≤ 256)
    (hodd : s.textLen.toNat % 2 = 1) : exec .dechex s = .next (s.raise .invalidFormat) := by
  rw [exec_dechex, dechex_eq, if_neg (Nat.not_lt.2 hn), if_pos hodd, conclude_error]

section
variable {α : Type} {val : Byte → Option α} {pack : List α → List Byte} {s : State}

theorem decodeText_of_none {i : Nat} (hn : s.textLen.toNat ≤ 256) (hi : i < s.textLen.toNat)
    (hval : val (byteAt s.text i) = none) :
    decodeText val pack s = .error .invalidFormat := by
  rw [decodeText, valuesOf_textChars_error hn hi hval, error_bind]

/-- A text that spells no whole byte makes an empty key, which is refused (R83, R86). -/
theorem decodeText_of_short (hn : s.textLen.toNat ≤ 256)
    (hval : ∀ i < s.textLen.toNat, val (byteAt s.text i) ≠ none)
    (hpack : ∀ vs : List α, vs.length = s.textLen.toNat → (pack vs).length = 0) :
    decodeText val pack s = .error .invalidKey := by
  cases hvs : valuesOf val s.textChars with
  | error k =>
    obtain ⟨-, c, hc, hnone⟩ := valuesOf_error hvs
    rw [State.textChars_eq hn, List.mem_map] at hc
    obtain ⟨i, hi, rfl⟩ := hc
    exact absurd hnone (hval i (List.mem_range.1 hi))
  | ok vs =>
    have hlen : vs.length = s.textLen.toNat := by
      have hmap := congrArg List.length ((valuesOf_eq_ok val).1 hvs)
      simpa [State.textChars_eq hn] using hmap.symm
    rw [decodeText, hvs, ok_bind, if_pos (hpack vs hlen)]

theorem decodeText_of_values {vs : List α} {d : α} (hn : s.textLen.toNat ≤ 256)
    (hlen : vs.length = s.textLen.toNat)
    (hval : ∀ i < s.textLen.toNat, val (byteAt s.text i) = some (vs.getD i d))
    (hpack : (pack vs).length ≠ 0) : decodeText val pack s = .ok (s.loadKey (pack vs)) := by
  rw [decodeText, valuesOf_textChars_ok hn hlen hval, ok_bind, if_neg hpack]

end

/-- A character without a value fails the text, wherever it stands (R81, R83). -/
theorem exec_decb32_of_none {s : State} {i : Nat} (hn : s.textLen.toNat ≤ 256)
    (hi : i < s.textLen.toNat) (hval : b32val (byteAt s.text i) = none) :
    exec .decb32 s = .next (s.raise .invalidFormat) := by
  rw [exec_decb32_of_le hn, decodeText_of_none hn hi hval, conclude_error]

/-- So does a character that is no digit, be the length odd or even (R85, R86). -/
theorem exec_dechex_of_none {s : State} {i : Nat} (hn : s.textLen.toNat ≤ 256)
    (hi : i < s.textLen.toNat) (hval : hexval (byteAt s.text i) = none) :
    exec .dechex s = .next (s.raise .invalidFormat) := by
  obtain heven | hodd := Nat.mod_two_eq_zero_or_one s.textLen.toNat
  · rw [exec_dechex_of_even hn heven, decodeText_of_none hn hi hval, conclude_error]
  · exact exec_dechex_of_odd hn hodd

/-- The registers a decoder leaves when it succeeds (R83, R86). -/
theorem exec_loadKey {i : Instr} {s : State} {out : List Byte} (hout : out.length ≤ 160)
    (h : exec i s = conclude s (.ok (s.loadKey out))) :
    ∃ t, exec i s = .next t ∧ t = { s with key := t.key, keyLen := t.keyLen, status := .ok } ∧
      t.keyLen.toNat = out.length ∧ ∀ k, byteAt t.key k = out.getD k 0 :=
  ⟨(s.loadKey out).succeed, h, rfl, toNat_ofNat_length (by omega),
    byteAt_fillBuf_of_length_le hout⟩

end Sys2Proof.Machine
end

section
/-! The two alphabets and the two packings of the secret decoder (R81 to R86). -/

namespace Sys2Proof.Machine

/-! ### Base32 -/

/-- The number a list of Base32 symbols spells, the first the most significant (R84). -/
def symbolSum (vs : List (BitVec 5)) : Nat :=
  ∑ i ∈ Finset.range vs.length, (vs.getD i 0).toNat * 32 ^ (vs.length - 1 - i)

theorem symbolSum_cons (v : BitVec 5) (vs : List (BitVec 5)) :
    symbolSum (v :: vs) = v.toNat * 32 ^ vs.length + symbolSum vs := by
  rw [symbolSum, List.length_cons, Finset.sum_range_succ', add_comm]
  congr 1
  refine Finset.sum_congr rfl fun i _ => ?_
  rw [List.getD_cons_succ, show vs.length + 1 - 1 - (i + 1) = vs.length - 1 - i by omega]

theorem symbolSum_lt (vs : List (BitVec 5)) : symbolSum vs < 32 ^ vs.length := by
  induction vs with
  | nil => decide
  | cons v vs ih =>
    have hv : v.toNat + 1 ≤ 32 := v.isLt
    calc symbolSum (v :: vs) = v.toNat * 32 ^ vs.length + symbolSum vs := symbolSum_cons v vs
      _ < (v.toNat + 1) * 32 ^ vs.length := by rw [Nat.succ_mul]; omega
      _ ≤ 32 * 32 ^ vs.length := Nat.mul_le_mul_right _ hv
      _ = 32 ^ (v :: vs).length := by rw [List.length_cons, Nat.pow_succ, Nat.mul_comm]

/-- The loop emits a byte for every 8 bits that come in (R82). -/
theorem length_b32pack (acc : Nat) {nbits : Nat} (h : nbits < 8) (vs : List (BitVec 5)) :
    (b32pack acc nbits vs).length = (nbits + 5 * vs.length) / 8 := by
  induction vs generalizing acc nbits with
  | nil => exact (Nat.div_eq_of_lt h).symm
  | cons v vs ih =>
    rw [b32pack, List.length_cons]
    split
    · rw [List.length_cons, ih _ (by omega)]
      omega
    · rw [ih _ (by omega)]
      omega

/-- The byte at bit `e` of a buffer followed by `m` further bits does not depend on what stands
above the low `f` bits of the buffer, where `e + 8 ≤ f + m`. -/
theorem byte_mod_two_pow {f m e : Nat} (acc y : Nat) (h : e + 8 ≤ f + m) :
    (acc % 2 ^ f * 2 ^ m + y) / 2 ^ e % 256 = (acc * 2 ^ m + y) / 2 ^ e % 256 := by
  have hbyte : ∀ x, x / 2 ^ e % 256 = x % 2 ^ (e + 8) / 2 ^ e := fun x => by
    rw [Nat.pow_add, Nat.mod_mul_right_div_self]
  have hdvd : 2 ^ (e + 8) ∣ 2 ^ f * 2 ^ m := by
    rw [← Nat.pow_add]
    exact Nat.pow_dvd_pow 2 h
  have hmod : acc % 2 ^ f * 2 ^ m + y ≡ acc * 2 ^ m + y [MOD 2 ^ (e + 8)] :=
    (((Nat.mod_modEq acc (2 ^ f)).mul_right' (2 ^ m)).add_right y).of_dvd hdvd
  rw [hbyte, hbyte, hmod]

/-- Byte `k` of the loop is the `k`-th byte from the top of the bits in the buffer followed by those
of the symbols (R82, R84). -/
theorem getD_b32pack (acc : Nat) {nbits k : Nat} (h : nbits < 8) (vs : List (BitVec 5))
    (hk : 8 * (k + 1) ≤ nbits + 5 * vs.length) :
    ((b32pack acc nbits vs).getD k 0).toNat =
      (acc * 32 ^ vs.length + symbolSum vs) / 2 ^ (nbits + 5 * vs.length - 8 * (k + 1)) % 256 := by
  induction vs generalizing acc nbits k with
  | nil =>
    rw [List.length_nil] at hk
    omega
  | cons v vs ih =>
    have hbits : acc * 32 ^ (vs.length + 1) + symbolSum (v :: vs) =
        (acc * 32 + v.toNat) * 32 ^ vs.length + symbolSum vs := by
      rw [symbolSum_cons]
      ring
    have hpow : 32 ^ vs.length = 2 ^ (5 * vs.length) := (Nat.pow_mul 2 5 vs.length).symm
    rw [List.length_cons] at hk ⊢
    rw [hbits, b32pack]
    generalize acc * 32 + v.toNat = acc'
    split
    next hfull =>
      cases k with
      | zero =>
        have htop : (acc' * 32 ^ vs.length + symbolSum vs) / 32 ^ vs.length = acc' := by
          rw [Nat.mul_comm, Nat.mul_add_div (by positivity), Nat.div_eq_of_lt (symbolSum_lt vs),
            Nat.add_zero]
        rw [List.getD_cons_zero, BitVec.toNat_ofNat, Nat.shiftRight_eq_div_pow,
          show nbits + 5 * (vs.length + 1) - 8 * (0 + 1) = 5 * vs.length + (nbits + 5 - 8) by omega,
          Nat.pow_add, ← hpow, ← Nat.div_div_eq_div_mul, htop]
      | succ k =>
        rw [List.getD_cons_succ, ih _ (by omega) (by omega), hpow, byte_mod_two_pow _ _ (by omega),
          show nbits + 5 * (vs.length + 1) - 8 * (k + 1 + 1) =
            nbits + 5 - 8 + 5 * vs.length - 8 * (k + 1) by omega]
    next hfew =>
      rw [ih _ (by omega) (by omega),
        show nbits + 5 * (vs.length + 1) = nbits + 5 + 5 * vs.length by omega]

/-- `floor(5n/8)` bytes (R84). -/
theorem length_b32decode (vs : List (BitVec 5)) : (b32decode vs).length = 5 * vs.length / 8 := by
  rw [b32decode, length_b32pack 0 (by decide), Nat.zero_add]

/-! ### Hexadecimal -/

theorem length_hexPairs (h : List (BitVec 4)) : (hexPairs h).length = h.length / 2 := by
  fun_induction hexPairs h with
  | case1 hi lo rest ih => simp only [List.length_cons, ih]; omega
  | case2 d => simp
  | case3 => rfl

/-- A pair of digits is a byte, the first digit its high nibble (R86). -/
theorem getD_hexPairs (h : List (BitVec 4)) {k : Nat} (hk : k < h.length / 2) :
    ((hexPairs h).getD k 0).toNat =
      (h.getD (2 * k) 0).toNat * 16 + (h.getD (2 * k + 1) 0).toNat := by
  fun_induction hexPairs h generalizing k with
  | case1 hi lo rest ih =>
    cases k with
    | zero => exact toNat_append hi lo
    | succ k => exact ih (by simp only [List.length_cons] at hk; omega)
  | case2 d => simp at hk
  | case3 => simp at hk

/-- The value of a hexadecimal digit of either case (R85). -/
theorem hexval_eq_some_iff (c : Byte) (d : Nat) :
    (hexval c).map BitVec.toNat = some d ↔
      (c.toNat = 0x30 + d ∧ d ≤ 9) ∨ (c.toNat = 0x41 + (d - 10) ∧ 10 ≤ d ∧ d ≤ 15) ∨
        (c.toNat = 0x61 + (d - 10) ∧ 10 ≤ d ∧ d ≤ 15) := by
  unfold hexval
  split_ifs with hdigit hupper hlower
  all_goals
    simp only [Option.map_some, Option.map_none, Option.some_inj, BitVec.toNat_ofNat, reduceCtorEq,
      false_iff]
    omega

/-- A byte without a hexadecimal digit's value has no value (R85). -/
theorem hexval_eq_none {c : Byte} (h : ∀ d ≤ 15, (hexval c).map BitVec.toNat ≠ some d) :
    hexval c = none := by
  cases hv : hexval c with
  | none => rfl
  | some v =>
    have hle : v.toNat ≤ 15 := Nat.le_of_lt_succ v.isLt
    exact absurd (congrArg (Option.map BitVec.toNat) hv) (h v.toNat hle)

end Sys2Proof.Machine
end

section
/-! What changes the key (R88). -/

namespace Sys2Proof.Machine

/-- The key is written by the decoders and `WIPE` alone among the commands (R21, R88). -/
theorem HasEffect.instr_of_key {s : State} {i : Instr} {e : Effect} (h : HasEffect s i e)
    (hmem : .key ∈ e.registers ∨ .keyLen ∈ e.registers) :
    i = .decb32 ∨ i = .dechex ∨ i = .wipe := by
  cases h <;> simp [Effect.registers] at hmem ⊢

/-- A command that changed a register other than the status has succeeded (R172). -/
theorem exec_changes_ok {i : Instr} {s t : State} {r : RegName} (hr : r ≠ .status)
    (h : exec i s = .next t) (hne : ¬ agreeOn s t r) : t.status = .ok := by
  obtain ⟨k, -, rfl⟩ | ⟨e, -, rfl⟩ := exec_next_cases h
  · exact absurd (agreeOn_raise s k hr) hne
  · rfl

/-- A step whose command changed a register other than the status has succeeded. -/
theorem step_changes_ok {s t : State} {r : RegName} {rest : List HostEvent} {w : Word} {i : Instr}
    (hr : r ≠ .status) (h : step s = .next t) (hhost : s.host = .write (offsetOf .cmd) 4 w :: rest)
    (hd : decode w = .ok i) (hne : ¬ agreeOn s t r) : t.status = .ok := by
  rw [stepRunsDecodedCommand s rest w i hhost hd] at h
  exact exec_changes_ok hr h fun hsame => hne ((agreeOn_port s t rest none r).1 hsame)

/-- The words of `KEY` and `KEYLEN` in the register space (R45). -/
theorem offsetOf_key {reg : Reg} {r : RegName} (hr : r = .key ∨ r = .keyLen)
    (hown : reg.owner = some r) :
    offsetOf reg = 0x03C ∨ (0x200 ≤ offsetOf reg ∧ offsetOf reg < 0x2A0) := by
  obtain rfl | rfl := hr
  · obtain ⟨w, rfl⟩ : ∃ w, reg = .key w := by cases reg <;> simp [Reg.owner] at hown ⊢
    refine .inr ?_
    simp only [offsetOf]
    omega
  · obtain rfl : reg = .keyLen := by cases reg <;> simp [Reg.owner] at hown ⊢
    exact .inl rfl

end Sys2Proof.Machine
end

section
/-! The statements about the secret decoder, each from the lemmas above. -/

namespace Sys2Proof.Machine

/-- Settles O24: the table byte by byte, and a character without a value fails the text. -/
theorem base32AlphabetIsTheTable : Obligations.Base32AlphabetIsTheTable := by
  unfold Obligations.Base32AlphabetIsTheTable
  intro table
  have htable : ∀ c : Byte, (b32val c).map BitVec.toNat = table.lookup c.toNat := by decide
  refine ⟨htable, fun s i hn hi hnone => exec_decb32_of_none hn hi ?_⟩
  rwa [← htable, Option.map_eq_none_iff] at hnone

/-- Settles O25: the loop from an empty buffer. -/
theorem base32PackingClosedForm : Obligations.Base32PackingClosedForm := by
  intro vs n m total
  refine ⟨length_b32decode vs, fun k hk => ?_⟩
  have hbyte := getD_b32pack 0 (nbits := 0) (k := k) (by decide) vs (by omega)
  rw [Nat.zero_mul, Nat.zero_add, Nat.zero_add] at hbyte
  have hdrop : 5 * n - 8 * (k + 1) = 5 * n % 8 + 8 * (m - 1 - k) := by omega
  rw [b32decode, hbyte, Nat.div_div_eq_div_mul, hdrop, Nat.pow_add, Nat.pow_mul]
  rfl

/-- Settles O26: the checks of `DECB32` in their order, and its packing. -/
theorem decb32DecodesTheText : Obligations.Decb32DecodesTheText := by
  refine ⟨by decide, fun s => ?_⟩
  intro n
  refine ⟨exec_decb32_of_long, ?_, fun hn hval => ?_, fun h2 hn vs hlen hval => ?_⟩
  · rintro hn ⟨i, hi, hval⟩
    exact exec_decb32_of_none hn hi hval
  · have hn' : n ≤ 256 := by omega
    have hpack : ∀ vs : List (BitVec 5), vs.length = n → (b32decode vs).length = 0 := by
      intro vs hlen
      rw [length_b32decode]
      omega
    rw [exec_decb32_of_le hn', decodeText_of_short hn' hval hpack]
    rfl
  · have hout : (b32decode vs).length = 5 * n / 8 := by rw [length_b32decode, hlen]
    have hexec := exec_decb32_of_le (s := s) hn
    rw [decodeText_of_values hn hlen hval (by omega)] at hexec
    obtain ⟨t, ht, hframe, hkeyLen, hkey⟩ := exec_loadKey (by omega) hexec
    refine ⟨t, ht, hframe, hkeyLen.trans hout, fun k _ => hkey k, fun k hk _ => ?_⟩
    rw [hkey, List.getD_eq_default _ _ (by omega)]

/-- Settles O27: the ranges of digits, and a byte outside them fails the text. -/
theorem hexDigitsHaveTheirValues : Obligations.HexDigitsHaveTheirValues :=
  ⟨hexval_eq_some_iff, fun _ => exec_dechex_of_odd,
    fun _ _ hn hi hd => exec_dechex_of_none hn hi (hexval_eq_none hd)⟩

/-- Settles O28: the checks of `DECHEX` in their order, and its pairs. -/
theorem dechexDecodesTheText : Obligations.DechexDecodesTheText := by
  refine ⟨by decide, fun s => ?_⟩
  intro n
  refine ⟨exec_dechex_of_long, exec_dechex_of_odd, ?_, fun hn => ?_,
    fun h2 hn heven h hlen hval => ?_⟩
  · rintro hn - ⟨i, hi, hval⟩
    exact exec_dechex_of_none hn hi hval
  · have hn' : n ≤ 256 := by omega
    have hval : ∀ i < n, hexval (byteAt s.text i) ≠ none := fun i hi => by omega
    have hpack : ∀ h : List (BitVec 4), h.length = n → (hexPairs h).length = 0 := by
      intro h hlen
      rw [length_hexPairs]
      omega
    rw [exec_dechex_of_even hn' (by omega), decodeText_of_short hn' hval hpack]
    rfl
  · have hout : (hexPairs h).length = n / 2 := by rw [length_hexPairs, hlen]
    have hexec := exec_dechex_of_even hn heven
    rw [decodeText_of_values hn hlen hval (by omega)] at hexec
    obtain ⟨t, ht, hframe, hkeyLen, hkey⟩ := exec_loadKey (by omega) hexec
    refine ⟨t, ht, hframe, hkeyLen.trans hout, fun k hk => ?_, fun k hk _ => ?_⟩
    · rw [hkey, getD_hexPairs h (by omega)]
    · rw [hkey, List.getD_eq_default _ _ (by omega)]

/-- Settles O29: the words of the two registers, and the commands whose effect lists them. -/
theorem keyChangesOnlyByDecodeWipeOrHost : Obligations.KeyChangesOnlyByDecodeWipeOrHost := by
  intro s t h hne
  obtain ⟨r, hr, hchanged⟩ : ∃ r, (r = .key ∨ r = .keyLen) ∧ ¬ agreeOn s t r := by
    by_cases hkey : s.key = t.key
    · exact ⟨.keyLen, .inr rfl, fun hlen : s.keyLen = t.keyLen => hne ⟨hkey.symm, hlen.symm⟩⟩
    · exact ⟨.key, .inl rfl, hkey⟩
  have hstatus : r ≠ .status := by
    obtain rfl | rfl := hr <;> decide
  obtain ⟨e, rest, hhost, hby⟩ := step_changedBy hstatus h hchanged
  refine ⟨e, rest, hhost, ?_⟩
  cases hby with
  | reset => exact .inl rfl
  | write reg v hown _ => exact .inr (.inl ⟨_, v, rfl, offsetOf_key hr hown⟩)
  | command w i e hd he hmem =>
    refine .inr (.inr ⟨w, rfl, step_changes_ok hstatus h hhost hd hchanged, ?_⟩)
    have hkey : .key ∈ e.registers ∨ .keyLen ∈ e.registers := by
      obtain rfl | rfl := hr
      · exact .inl hmem
      · exact .inr hmem
    obtain rfl | rfl | rfl := he.instr_of_key hkey
    · exact .inl hd
    · exact .inr (.inl hd)
    · exact .inr (.inr hd)

end Sys2Proof.Machine
end

section
/-! The counter codec word by word: `CB0` and `CB1` are the halves of the counter, in both directions
(R101, R103), so each of the two functions undoes the other. -/

namespace Sys2Proof.Machine

/-! ### The two functions -/

/-- Byte `i` of an encoded counter as a number (R100). -/
theorem toNat_byteAt_ctrEncode (c : DWord) {i : Nat} (h : i < 8) :
    (byteAt (ctrEncode c) i).toNat = c.toNat / 2 ^ (56 - 8 * i) % 256 := by
  rw [byteAt_ctrEncode c h, BitVec.extractLsb'_toNat, Nat.shiftRight_eq_div_pow]

theorem bufWord_ctrEncode_zero (c : DWord) : bufWord (ctrEncode c) 0 = highWord c := by
  apply BitVec.eq_of_toNat_eq
  simp (disch := decide) only [bufWord, toNat_be32, toNat_byteAt_ctrEncode, toNat_highWord]
  omega

theorem bufWord_ctrEncode_one (c : DWord) : bufWord (ctrEncode c) 1 = lowWord c := by
  apply BitVec.eq_of_toNat_eq
  simp (disch := decide) only [bufWord, toNat_be32, toNat_byteAt_ctrEncode, toNat_lowWord]
  omega

/-- The first byte of a decoded counter is the most significant (R102). -/
theorem toNat_ctrDecode (b : Buf 8) :
    (ctrDecode b).toNat = ∑ i ∈ Finset.range 8, (byteAt b i).toNat * 256 ^ (7 - i) := by
  simp only [ctrDecode, toNat_append, Finset.sum_range_succ, Finset.sum_range_zero]
  omega

theorem toNat_ctrDecode_words (b : Buf 8) :
    (ctrDecode b).toNat = (bufWord b 0).toNat * 2 ^ 32 + (bufWord b 1).toNat := by
  rw [toNat_ctrDecode]
  simp only [bufWord, toNat_be32, Finset.sum_range_succ, Finset.sum_range_zero, Nat.reduceMul,
    Nat.reduceAdd]
  omega

theorem highWord_ctrDecode (b : Buf 8) : highWord (ctrDecode b) = bufWord b 0 := by
  apply BitVec.eq_of_toNat_eq
  rw [toNat_highWord, toNat_ctrDecode_words]
  omega

theorem lowWord_ctrDecode (b : Buf 8) : lowWord (ctrDecode b) = bufWord b 1 := by
  apply BitVec.eq_of_toNat_eq
  rw [toNat_lowWord, toNat_ctrDecode_words]
  omega

theorem ctrDecode_ctrEncode (c : DWord) : ctrDecode (ctrEncode c) = c :=
  dword_ext ((highWord_ctrDecode _).trans (bufWord_ctrEncode_zero c))
    ((lowWord_ctrDecode _).trans (bufWord_ctrEncode_one c))

theorem ctrEncode_ctrDecode (b : Buf 8) : ctrEncode (ctrDecode b) = b := by
  refine buf_ext_words (m := 2) rfl (Fin.forall_fin_two.2 ⟨?_, ?_⟩)
  · exact (bufWord_ctrEncode_zero _).trans (highWord_ctrDecode b)
  · exact (bufWord_ctrEncode_one _).trans (lowWord_ctrDecode b)

/-! ### The two commands -/

theorem exec_ctrenc_eq (s : State) :
    exec .ctrenc s = .next { s with cb := ctrEncode s.ctr, status := .ok } := by
  rw [exec_ctrenc, conclude_ok]
  rfl

theorem exec_ctrdec_eight (s : State) :
    exec (.ctrdec 8) s = .next { s with ctr := ctrDecode s.cb, status := .ok } := by
  rw [exec_ctrdec, ctrdec_eq, if_neg (not_not.2 rfl), conclude_ok]
  rfl

theorem exec_ctrdec_of_ne {n : Nat} (h : n ≠ 8) (s : State) :
    exec (.ctrdec n) s = .next { s with status := .invalidLength } := by
  rw [exec_ctrdec, ctrdec_eq, if_pos h, conclude_error]
  rfl

/-- `CTRDEC 8` after `CTRENC` leaves the counter as it was (R102). -/
theorem exec_ctrdec_eight_of_encoded (s : State) :
    exec (.ctrdec 8) { s with cb := ctrEncode s.ctr, status := .ok } =
      .next { s with cb := ctrEncode s.ctr, status := .ok } := by
  rw [exec_ctrdec_eight, ctrDecode_ctrEncode]

/-! ### Their words and what the host reads -/

/-- The word `(n << 8) | 4` (R62, R103). -/
theorem decode_ctrdec_word {n : Nat} (hn : n ≤ 255) :
    decode (BitVec.ofNat 32 (n <<< 8 ||| 0x04)) = .ok (.ctrdec n) := by
  have hor : n <<< 8 ||| 0x04 = n * 256 + 0x04 := by
    rw [← Nat.shiftLeft_add_eq_or_of_lt (by decide), Nat.shiftLeft_eq]
  rw [hor]
  exact (ctrdecImmediateIsBits15To8 _ n).2 ⟨Nat.mod_eq_of_lt (by omega), hn⟩

/-- `CB0` reads as the high half of the counter it encodes, `CB1` as the low half (R101). -/
theorem readOffset_encoded {s t : State} (h : t.cb = ctrEncode s.ctr) :
    readOffset t 0x030 = readOffset s 0x010 ∧ readOffset t 0x034 = readOffset s 0x014 := by
  have hcb0 : readOffset t 0x030 = bufWord t.cb 0 := readOffset_offsetOf t (.cb 0)
  have hcb1 : readOffset t 0x034 = bufWord t.cb 1 := readOffset_offsetOf t (.cb 1)
  have hhi : readOffset s 0x010 = highWord s.ctr := readOffset_offsetOf s .ctrHi
  have hlo : readOffset s 0x014 = lowWord s.ctr := readOffset_offsetOf s .ctrLo
  rw [hcb0, hcb1, hhi, hlo, h]
  exact ⟨bufWord_ctrEncode_zero s.ctr, bufWord_ctrEncode_one s.ctr⟩

end Sys2Proof.Machine
end

section
/-! The statements about the counter codec, each from the lemmas above. -/

namespace Sys2Proof.Machine

/-- Settles O30: the bytes of the encoded counter, and its words as the host reads them. -/
theorem ctrencWritesTheCounterBigEndian : Obligations.CtrencWritesTheCounterBigEndian :=
  ⟨by decide, fun s =>
    ⟨_, exec_ctrenc_eq s, rfl, fun _ => byteAt_ctrEncode s.ctr, readOffset_encoded rfl⟩⟩

/-- Settles O31: the word of each length, the sum for 8 bytes, and the failure for any other. -/
theorem ctrdecReadsTheCounterBigEndian : Obligations.CtrdecReadsTheCounterBigEndian :=
  ⟨fun _ => decode_ctrdec_word, fun s =>
    ⟨⟨_, exec_ctrdec_eight s, rfl, toNat_ctrDecode s.cb⟩, fun _ h => exec_ctrdec_of_ne h s⟩⟩

/-- Settles O32: the two functions undo each other, and so do the commands. -/
theorem counterCodecRoundTrip : Obligations.CounterCodecRoundTrip :=
  ⟨toNat_ctrDecode, ctrDecode_ctrEncode, ctrEncode_ctrDecode, fun s =>
    ⟨_, _, exec_ctrenc_eq s, exec_ctrdec_eight_of_encoded s, rfl⟩⟩

end Sys2Proof.Machine
end

section
/-! SHA-1 by its parts: padding (R111), the schedule (R115), the rounds (R116), and the fold of the
blocks into the digest (R112, R116). -/

namespace Sys2Proof.Machine

/-! ### Padding -/

theorem padZeros_lt (len : Nat) : padZeros len < 64 := by
  unfold padZeros
  omega

/-- The number of zeros as an integer, without the cut at zero (R111). -/
theorem cast_padZeros (len : Nat) : (padZeros len : Int) = (55 - (len : Int)) % 64 := by
  unfold padZeros
  omega

theorem padZeros_of_le {len : Nat} (h : len ≤ 55) : padZeros (64 + len) = 55 - len := by
  unfold padZeros
  omega

/-- The padding fills the last block (R111). -/
theorem length_padMessage (m : List Byte) : (padMessage m).length = 64 * blockCount m.length := by
  have hz := cast_padZeros m.length
  simp only [padMessage, blockCount, List.length_append, List.length_replicate, length_bytesBE,
    List.length_singleton]
  omega

/-- A byte of the second of two lists, by its place there. -/
theorem getD_append_add {xs : List Byte} (ys : List Byte) (d : Byte) {n : Nat} (h : xs.length = n)
    (i : Nat) : (xs ++ ys).getD (n + i) d = ys.getD i d := by
  rw [List.getD_append_right _ _ _ _ (by omega), h, Nat.add_sub_cancel_left]

/-- The padding ends in the length field (R111). -/
theorem getD_padMessage_lengthField (m : List Byte) (i : Nat) :
    (padMessage m).getD (m.length + 1 + padZeros m.length + i) 0 =
      (bytesBE (8 * m.length) 8).getD i 0 := by
  have hlen : (m ++ [0x80] ++ List.replicate (padZeros m.length) (0 : Byte)).length =
      m.length + 1 + padZeros m.length := by
    simp only [List.length_append, List.length_singleton, List.length_replicate]
  exact getD_append_add _ _ hlen i

/-- Eight big-endian bytes spell the number: they are an encoded counter (R7, R100, R102). -/
theorem sum_bytesBE_eight {v : Nat} (h : v < 2 ^ 64) :
    ∑ i ∈ Finset.range 8, ((bytesBE v 8).getD i 0).toNat * 256 ^ (7 - i) = v := by
  have hv : (BitVec.ofNat 64 v).toNat = v := Nat.mod_eq_of_lt h
  have hsum := toNat_ctrDecode (ctrEncode (BitVec.ofNat 64 v))
  rw [ctrDecode_ctrEncode, ctrEncode, hv] at hsum
  refine (Finset.sum_congr rfl fun i hi => ?_).trans hsum.symm
  rw [byteAt_fillBuf, if_pos (Finset.mem_range.1 hi)]

/-! ### The message schedule -/

/-- The words a schedule is extended from stay behind the new ones. -/
theorem getD_extendSchedule_add (k : Nat) (ws : List Word) (i : Nat) :
    (extendSchedule k ws).getD (k + i) 0 = ws.getD i 0 := by
  induction k generalizing ws i with
  | zero => rw [extendSchedule, Nat.zero_add]
  | succ k ih => rw [extendSchedule, Nat.add_assoc, Nat.add_comm 1 i, ih, List.getD_cons_succ]

/-- Every new word follows the recurrence; newest first, the word `n` before another stands `n`
places after it (R115). -/
theorem getD_extendSchedule (ws : List Word) {k i : Nat} (h : i < k) :
    (extendSchedule k ws).getD i 0 =
      rotl32 ((extendSchedule k ws).getD (i + 3) 0 ^^^ (extendSchedule k ws).getD (i + 8) 0 ^^^
        (extendSchedule k ws).getD (i + 14) 0 ^^^ (extendSchedule k ws).getD (i + 16) 0) 1 := by
  induction k generalizing ws with
  | zero => cases h
  | succ k ih =>
    rw [extendSchedule]
    obtain hlt | rfl := Nat.lt_succ_iff_lt_or_eq.1 h
    · exact ih _ hlt
    · have hfirst := getD_extendSchedule_add i
      simp only [hfirst, List.getD_cons_succ]
      exact hfirst _ 0

theorem length_extendSchedule (k : Nat) (ws : List Word) :
    (extendSchedule k ws).length = k + ws.length := by
  induction k generalizing ws with
  | zero => rw [extendSchedule, Nat.zero_add]
  | succ k ih => rw [extendSchedule, ih, List.length_cons]; omega

theorem rotl32_eq_rotateLeft (x : Word) {n : Nat} (h : n < 32) : rotl32 x n = x.rotateLeft n := by
  rw [BitVec.rotateLeft_def, Nat.mod_eq_of_lt h, rotl32]

theorem length_schedule {block : List Word} (h : block.length = 16) :
    (schedule block).length = 80 := by
  rw [schedule, List.length_reverse, length_extendSchedule, List.length_reverse, h]

/-- Word `t` of the schedule, in the list newest first. -/
theorem getD_schedule {block : List Word} (h : block.length = 16) {t : Nat} (ht : t < 80) :
    (schedule block).getD t 0 = (extendSchedule 64 block.reverse).getD (79 - t) 0 := by
  have hlen : (extendSchedule 64 block.reverse).length = 80 := by
    rw [length_extendSchedule, List.length_reverse, h]
  rw [schedule, List.getD_reverse _ (by omega), hlen]

theorem getD_schedule_block {block : List Word} (h : block.length = 16) {t : Nat} (ht : t < 16) :
    (schedule block).getD t 0 = block.getD t 0 := by
  have hrev : t < block.reverse.length := by
    rw [List.length_reverse]
    omega
  rw [getD_schedule h (by omega), show 79 - t = 64 + (block.length - 1 - t) by omega,
    getD_extendSchedule_add, ← List.length_reverse, ← List.getD_reverse _ hrev,
    List.reverse_reverse]

theorem getD_schedule_rec {block : List Word} (h : block.length = 16) {t : Nat} (h16 : 16 ≤ t)
    (ht : t < 80) :
    (schedule block).getD t 0 =
      ((schedule block).getD (t - 3) 0 ^^^ (schedule block).getD (t - 8) 0 ^^^
        (schedule block).getD (t - 14) 0 ^^^ (schedule block).getD (t - 16) 0).rotateLeft 1 := by
  have hback : ∀ n ≤ 16, (schedule block).getD (t - n) 0 =
      (extendSchedule 64 block.reverse).getD (79 - t + n) 0 := fun n hn => by
    rw [getD_schedule h (by omega), show 79 - (t - n) = 79 - t + n by omega]
  rw [getD_schedule h ht, getD_extendSchedule _ (by omega), rotl32_eq_rotateLeft _ (by decide),
    hback 3 (by decide), hback 8 (by decide), hback 14 (by decide), hback 16 (by decide)]

/-! ### The rounds -/

/-- The working variables before round `t` of a block (R116). -/
def workingVars (h : Chain) (block : List Word) (t : Nat) : Chain :=
  sha1Rounds 0 h ((schedule block).take t)

theorem sha1Rounds_concat (t : Nat) (v : Chain) (ws : List Word) (w : Word) :
    sha1Rounds t v (ws ++ [w]) = sha1Round (t + ws.length) (sha1Rounds t v ws) w := by
  induction ws generalizing t v with
  | nil => rfl
  | cons x xs ih =>
    rw [List.cons_append, sha1Rounds, ih, sha1Rounds, List.length_cons, Nat.add_assoc, Nat.add_comm 1]

/-- One more word of the schedule is one more round. -/
theorem workingVars_succ (h : Chain) {block : List Word} (hb : block.length = 16) {t : Nat}
    (ht : t < 80) :
    workingVars h block (t + 1) =
      sha1Round t (workingVars h block t) ((schedule block).getD t 0) := by
  have hlt : t < (schedule block).length := by rw [length_schedule hb]; exact ht
  rw [workingVars, List.take_succ_eq_append_getElem hlt, sha1Rounds_concat, List.length_take_of_le hlt.le,
    Nat.zero_add, List.getD_eq_getElem _ _ hlt, workingVars]

theorem compress_eq_workingVars (h : Chain) {block : List Word} (hb : block.length = 16) :
    compress h block =
      ⟨h.a + (workingVars h block 80).a, h.b + (workingVars h block 80).b,
        h.c + (workingVars h block 80).c, h.d + (workingVars h block 80).d,
        h.e + (workingVars h block 80).e⟩ := by
  rw [workingVars, List.take_of_length_le (length_schedule hb).le, compress]

/-- Ch, Parity, Maj, Parity by the table's rows (R114). -/
theorem roundFunction_eq (t : Nat) (b c d : Word) :
    roundFunction t b c d =
      if t ≤ 19 then (b &&& c) ||| ((b ^^^ 0xFFFFFFFF) &&& d)
      else if 40 ≤ t ∧ t ≤ 59 then (b &&& c) ||| (b &&& d) ||| (c &&& d)
      else b ^^^ c ^^^ d := by
  have hnot : b ^^^ 0xFFFFFFFF = ~~~b := BitVec.xor_allOnes
  simp only [roundFunction, hnot, Nat.lt_succ_iff]
  by_cases hparity : t ≤ 39
  · rw [if_pos hparity, if_neg (show ¬ (40 ≤ t ∧ t ≤ 59) by omega)]
  · have hmaj : 40 ≤ t ∧ t ≤ 59 ↔ t ≤ 59 := by omega
    simp only [hparity, hmaj, if_false]

theorem roundConstant_eq (t : Nat) :
    roundConstant t =
      if t ≤ 19 then 0x5A827999 else if t ≤ 39 then 0x6ED9EBA1
      else if t ≤ 59 then 0x8F1BBCDC else 0xCA62C1D6 := by
  simp only [roundConstant, Nat.lt_succ_iff]

theorem sha1Round_eq (t : Nat) (v : Chain) (w : Word) :
    sha1Round t v w =
      ⟨v.a.rotateLeft 5 + roundFunction t v.b v.c v.d + v.e + roundConstant t + w, v.a,
        v.b.rotateLeft 30, v.c, v.d⟩ := by
  rw [sha1Round, rotl32_eq_rotateLeft _ (by decide), rotl32_eq_rotateLeft _ (by decide)]

/-! ### Blocks and digest -/

/-- The hash value after the first `n` blocks of a padded message (R116). -/
def hashAfter (p : List Byte) (n : Nat) : Chain :=
  (List.range n).foldl (fun h i => compress h (blockWords p i)) initialHash

theorem hashAfter_succ (p : List Byte) (n : Nat) :
    hashAfter p (n + 1) = compress (hashAfter p n) (blockWords p n) := by
  rw [hashAfter, List.range_succ, List.foldl_append]
  rfl

theorem sha1_eq (m : List Byte) :
    sha1 m = chainBytes (hashAfter (padMessage m) (blockCount m.length)) := rfl

@[simp] theorem length_blockWords (p : List Byte) (i : Nat) : (blockWords p i).length = 16 := by
  rw [blockWords, List.length_map, List.length_range]

/-- Word `t` of block `i` is four bytes of the padded message (R112). -/
theorem getD_blockWords (p : List Byte) (i : Nat) {t : Nat} (ht : t < 16) :
    (blockWords p i).getD t 0 =
      be32 (p.getD (64 * i + 4 * t) 0) (p.getD (64 * i + 4 * t + 1) 0)
        (p.getD (64 * i + 4 * t + 2) 0) (p.getD (64 * i + 4 * t + 3) 0) := by
  rw [List.getD_eq_getElem _ _ (by simpa using ht)]
  simp only [blockWords, List.getElem_map, List.getElem_range]

/-- The bytes of a word, the first the most significant (R116). -/
theorem getD_bytesBE_word (v : Word) {j : Nat} (hj : j < 4) :
    (bytesBE v.toNat 4).getD j 0 = v.extractLsb' (24 - 8 * j) 8 := by
  rw [getD_bytesBE _ _ hj]
  apply BitVec.eq_of_toNat_eq
  rw [BitVec.toNat_ofNat, BitVec.extractLsb'_toNat, show 8 * (4 - 1 - j) = 24 - 8 * j by omega]

theorem getD_word_append (v : Word) (rest : List Byte) {j : Nat} (hj : j < 4) :
    (bytesBE v.toNat 4 ++ rest).getD j 0 = v.extractLsb' (24 - 8 * j) 8 := by
  rw [List.getD_append _ _ _ _ (by rwa [length_bytesBE]), getD_bytesBE_word v hj]

theorem getD_word_append_add (v : Word) (rest : List Byte) (i : Nat) :
    (bytesBE v.toNat 4 ++ rest).getD (4 + i) 0 = rest.getD i 0 :=
  getD_append_add rest 0 (length_bytesBE _ 4) i

/-- The digest is the five words of the hash value in order (R116). -/
theorem toList_chainBytes (h : Chain) :
    (chainBytes h).toList =
      bytesBE h.a.toNat 4 ++ (bytesBE h.b.toNat 4 ++ (bytesBE h.c.toNat 4 ++
        (bytesBE h.d.toNat 4 ++ bytesBE h.e.toNat 4))) := by
  rw [chainBytes, toList_fillBuf_of_length (by simp only [List.length_append, length_bytesBE])]
  simp only [List.append_assoc]

/-- The digest byte by byte: the words stand four bytes apart (R116). -/
theorem byteAt_chainBytes (h : Chain) {j : Nat} (hj : j < 4) :
    byteAt (chainBytes h) j = h.a.extractLsb' (24 - 8 * j) 8 ∧
      byteAt (chainBytes h) (4 + j) = h.b.extractLsb' (24 - 8 * j) 8 ∧
      byteAt (chainBytes h) (8 + j) = h.c.extractLsb' (24 - 8 * j) 8 ∧
      byteAt (chainBytes h) (12 + j) = h.d.extractLsb' (24 - 8 * j) 8 ∧
      byteAt (chainBytes h) (16 + j) = h.e.extractLsb' (24 - 8 * j) 8 := by
  have h8 : 8 + j = 4 + (4 + j) := by omega
  have h12 : 12 + j = 4 + (4 + (4 + j)) := by omega
  have h16 : 16 + j = 4 + (4 + (4 + (4 + j))) := by omega
  simp only [byteAt, toList_chainBytes, h8, h12, h16, getD_word_append_add, getD_word_append _ _ hj,
    getD_bytesBE_word _ hj, and_self]

end Sys2Proof.Machine
end

section
/-! The statements about SHA-1, each from the lemmas above. -/

namespace Sys2Proof.Machine

/-- Settles O33: the number of zeros is the model's own, and the length field is eight bytes. -/
theorem sha1PaddingFillsWholeBlocks : Obligations.Sha1PaddingFillsWholeBlocks := by
  intro m len
  refine ⟨padZeros len, padZeros_lt len, cast_padZeros len, rfl, length_padMessage m, fun hlen => ?_⟩
  simp only [len, getD_padMessage_lengthField]
  exact sum_bytesBE_eight (by omega)

/-- Settles O34: the list newest first, read from its end. -/
theorem sha1ScheduleFollowsTheRecurrence : Obligations.Sha1ScheduleFollowsTheRecurrence :=
  fun _ hb => ⟨length_schedule hb, fun _ => getD_schedule_block hb, fun _ => getD_schedule_rec hb⟩

/-- Settles O35: the working variables after each number of rounds. -/
theorem sha1CompressionRunsEightyRounds : Obligations.Sha1CompressionRunsEightyRounds := by
  intro h block hb
  refine ⟨workingVars h block, rfl, fun t ht => ?_, compress_eq_workingVars h hb⟩
  rw [workingVars_succ h hb ht, sha1Round_eq, roundFunction_eq, roundConstant_eq]

/-- Settles O36: the hash value after each number of blocks. -/
theorem sha1FoldsTheBlocks : Obligations.Sha1FoldsTheBlocks := by
  intro m p blocks
  refine ⟨hashAfter p, blockWords p, rfl,
    fun i _ => ⟨length_blockWords p i, hashAfter_succ p i, fun t ht => ?_⟩,
    fun j hj => byteAt_chainBytes (hashAfter p blocks) hj⟩
  rw [getD_blockWords p i ht, toNat_be32]

end Sys2Proof.Machine
end

section
/-! A message of one block and a short rest: its padding is one block more, so its SHA-1 is two
compressions. The shape of both hashes of HMAC over eight bytes (R119). -/

namespace Sys2Proof.Machine

/-- The second and last block of a message of 64 bytes and then at most 55, the bytes `m` (R111). -/
def secondBlock (m : List Byte) : List Byte :=
  m ++ [0x80] ++ List.replicate (55 - m.length) 0 ++ bytesBE (8 * (64 + m.length)) 8

section
variable {b m : List Byte}

/-- A whole block and a rest of at most 55 bytes are padded to two blocks (R111). -/
theorem padMessage_block_append (hb : b.length = 64) (hm : m.length ≤ 55) :
    padMessage (b ++ m) = b ++ secondBlock m := by
  simp only [padMessage, secondBlock, List.length_append, hb, padZeros_of_le hm, List.append_assoc]

/-- The first block of a list is that of its first 64 bytes (R112). -/
theorem blockWords_append_zero (hb : b.length = 64) (rest : List Byte) :
    blockWords (b ++ rest) 0 = blockWords b 0 := by
  refine List.map_congr_left fun t ht => ?_
  rw [List.mem_range] at ht
  simp (disch := omega) only [List.getD_append]

/-- The second block of a list is the first of what follows 64 bytes (R112). -/
theorem blockWords_append_one (hb : b.length = 64) (rest : List Byte) :
    blockWords (b ++ rest) 1 = blockWords rest 0 := by
  refine List.map_congr_left fun t _ => ?_
  simp only [Nat.mul_one, Nat.mul_zero, Nat.zero_add, Nat.add_assoc, getD_append_add rest 0 hb]

/-- SHA-1 of a block and a rest of at most 55 bytes is two compressions. -/
theorem sha1_block_append (hb : b.length = 64) (hm : m.length ≤ 55) :
    sha1 (b ++ m) =
      chainBytes (compress (compress initialHash (blockWords b 0))
        (blockWords (secondBlock m) 0)) := by
  have hcount : blockCount (b ++ m).length = 2 := by
    rw [blockCount, List.length_append, hb]
    omega
  rw [sha1_eq, hcount, padMessage_block_append hb hm, hashAfter_succ, hashAfter_succ,
    blockWords_append_zero hb, blockWords_append_one hb, hashAfter, List.range_zero, List.foldl_nil]

end

/-- The second block of the inner hash: 576 bits are hashed (R119). -/
theorem secondBlock_eight {m : List Byte} (h : m.length = 8) :
    secondBlock m =
      m ++ [0x80] ++ List.replicate 47 0 ++ [0, 0, 0, 0, 0, 0, 0x02, 0x40] := by
  have hbits : bytesBE 576 8 = [0, 0, 0, 0, 0, 0, 0x02, 0x40] := by decide
  rw [secondBlock, h, ← hbits]

/-- The second block of the outer hash: 672 bits are hashed (R119). -/
theorem secondBlock_twenty {m : List Byte} (h : m.length = 20) :
    secondBlock m =
      m ++ [0x80] ++ List.replicate 35 0 ++ [0, 0, 0, 0, 0, 0, 0x02, 0xA0] := by
  have hbits : bytesBE 672 8 = [0, 0, 0, 0, 0, 0, 0x02, 0xA0] := by decide
  rw [secondBlock, h, ← hbits]

end Sys2Proof.Machine
end

section
/-! The key block of HMAC and the command `HMAC` (R117 to R121). -/

namespace Sys2Proof.Machine

/-! ### Buffers as lists -/

/-- A list that fits the buffer, with zeros after it. -/
theorem toList_fillBuf_of_length_le {n : Nat} {bs : List Byte} (h : bs.length ≤ n) :
    (fillBuf n bs).toList = bs ++ List.replicate (n - bs.length) 0 := by
  rw [toList_fillBuf, List.take_append, List.take_of_length_le h, List.take_replicate,
    Nat.min_eq_left (Nat.sub_le n _)]

/-- The first bytes of a buffer by their indices (R7). -/
theorem firstBytes_eq_map {n len : Nat} (b : Buf n) (h : len ≤ n) :
    firstBytes b len = (List.range len).map (byteAt b) := by
  refine List.ext_getElem (by simp [length_firstBytes, h]) fun i hi hi' => ?_
  have hlt : i < len := by simpa using hi'
  rw [← List.getD_eq_getElem _ 0, getD_firstBytes, if_pos hlt, List.getElem_map, List.getElem_range]

/-- A buffer by its bytes. -/
theorem toList_eq_map {n : Nat} (b : Buf n) : b.toList = (List.range n).map (byteAt b) := by
  rw [← firstBytes_eq_map b le_rfl, firstBytes, List.take_of_length_le (by simp)]

/-! ### The key block -/

/-- A key of at most 64 bytes is its own key (R117). -/
theorem hmacKeyBlock_of_le {k : List Byte} (h : k.length ≤ 64) : hmacKeyBlock k = fillBuf 64 k := by
  rw [hmacKeyBlock, if_neg (Nat.not_lt.2 h)]

/-- A longer key is replaced by its SHA-1 (R117). -/
theorem hmacKeyBlock_of_gt {k : List Byte} (h : 64 < k.length) :
    hmacKeyBlock k = fillBuf 64 (sha1 k).toList := by
  rw [hmacKeyBlock, if_pos h]

/-- The SHA-1 of a longer key has its key block (R121). -/
theorem hmacKeyBlock_sha1 {k : List Byte} (h : 64 < k.length) :
    hmacKeyBlock (sha1 k).toList = hmacKeyBlock k := by
  rw [hmacKeyBlock_of_gt h, hmacKeyBlock_of_le (by simp)]

/-- Zeros after a key, up to 64 bytes in all, stand in its key block anyway (R121). -/
theorem hmacKeyBlock_append_zeros {k : List Byte} {j : Nat} (h : k.length + j ≤ 64) :
    hmacKeyBlock (k ++ List.replicate j 0) = hmacKeyBlock k := by
  have hlen : (k ++ List.replicate j (0 : Byte)).length = k.length + j := by simp
  rw [hmacKeyBlock_of_le (by omega), hmacKeyBlock_of_le (by omega)]
  refine Vector.toList_inj.1 ?_
  rw [toList_fillBuf_of_length_le (by omega), toList_fillBuf_of_length_le (by omega), hlen,
    List.append_assoc, List.replicate_append_replicate]
  congr 2
  omega

theorem length_padKey (k0 : Buf 64) (padByte : Byte) : (padKey k0 padByte).length = 64 := by
  simp [padKey]

/-- The digest depends on a key by its key block only (R118). -/
theorem hmacSha1_congr {k k' : List Byte} (h : hmacKeyBlock k = hmacKeyBlock k') (m : List Byte) :
    hmacSha1 k m = hmacSha1 k' m := by
  rw [hmacSha1, h, ← hmacSha1]

/-! ### The command -/

theorem exec_hmac_of_long {s : State} (h : 160 < s.keyLen.toNat) :
    exec .hmac s = .next { s with status := .capacityExceeded } := by
  rw [exec_hmac, hmac_eq, if_pos h, conclude_error]
  rfl

theorem exec_hmac_of_empty {s : State} (h : s.keyLen.toNat = 0) :
    exec .hmac s = .next { s with status := .invalidKey } := by
  rw [exec_hmac, hmac_eq, if_neg (by omega), if_pos h, conclude_error]
  rfl

/-- With a key, `HMAC` writes the digest of the key bytes and the counter bytes (R120). -/
theorem exec_hmac_of_key {s : State} (h1 : 1 ≤ s.keyLen.toNat) (h : s.keyLen.toNat ≤ 160) :
    exec .hmac s = .next { s with
      digest := hmacSha1 ((List.range s.keyLen.toNat).map (byteAt s.key))
        ((List.range 8).map (byteAt s.cb))
      status := .ok } := by
  rw [exec_hmac, hmac_eq, if_neg (by omega), if_neg (by omega), conclude_ok, State.keyBytes,
    firstBytes_eq_map s.key h, toList_eq_map s.cb]
  rfl

end Sys2Proof.Machine
end

section
/-! The statements about HMAC, each from the lemmas above. -/

namespace Sys2Proof.Machine

/-- Settles O37: `K0` is the key block as a list. -/
theorem hmacIsTheTwoHashes : Obligations.HmacIsTheTwoHashes := by
  intro k m
  refine ⟨(hmacKeyBlock k).toList, Vector.length_toList, fun hk => ?_, fun hk => ?_, rfl⟩
  · rw [hmacKeyBlock_of_le hk, toList_fillBuf_of_length_le hk]
  · rw [hmacKeyBlock_of_gt hk, toList_fillBuf_of_length_le (by simp), Vector.length_toList]

/-- Settles O38: each hash is over the padded key, which is one block, and at most 55 bytes more. -/
theorem hmacOfEightBytesIsFourCompressions : Obligations.HmacOfEightBytesIsFourCompressions := by
  intro k c ki ko innerBlock inner outerBlock
  have hc : c.toList.length = 8 := Vector.length_toList
  have hinner : sha1 (ki ++ c.toList) = inner := by
    rw [sha1_block_append (length_padKey _ _) (by omega), secondBlock_eight hc]
  have hlen : inner.toList.length = 20 := Vector.length_toList
  calc hmacSha1 k c.toList
      = sha1 (ko ++ inner.toList) := by rw [← hinner]; rfl
    _ = chainBytes (compress (compress initialHash (blockWords ko 0)) (blockWords outerBlock 0)) := by
      rw [sha1_block_append (length_padKey _ _) (by omega), secondBlock_twenty hlen]

/-- Settles O39: such keys have the same key block. -/
theorem hmacKeysWithTheSameBlockAgree : Obligations.HmacKeysWithTheSameBlockAgree :=
  ⟨fun _ m _ h => hmacSha1_congr (hmacKeyBlock_append_zeros h) m,
    fun _ m h => hmacSha1_congr (hmacKeyBlock_sha1 h) m⟩

/-- Settles O40: the word, and the command by its two checks. -/
theorem hmacCommandHashesTheCounterBytes : Obligations.HmacCommandHashesTheCounterBytes :=
  ⟨by decide, fun _ => ⟨exec_hmac_of_long, exec_hmac_of_empty, exec_hmac_of_key⟩⟩

end Sys2Proof.Machine
end

section
/-! Dynamic truncation and the decimal formatter (R140 to R143). -/

namespace Sys2Proof.Machine

/-! ### Truncation -/

/-- The offset is the low nibble of the last byte of the digest (R140). -/
theorem toNat_and_low_nibble (b : Byte) : (b &&& 0x0F).toNat = b.toNat % 16 :=
  (BitVec.toNat_and b 0x0F).trans (Nat.and_two_pow_sub_one_eq_mod b.toNat 4)

/-- The low 31 bits of a big-endian word: the top bit of its first byte goes (R140). -/
theorem toNat_be32_low31 (b0 b1 b2 b3 : Byte) :
    ((be32 b0 b1 b2 b3 &&& 0x7FFFFFFF).setWidth 31).toNat =
      b0.toNat % 128 * 2 ^ 24 + b1.toNat * 2 ^ 16 + b2.toNat * 2 ^ 8 + b3.toNat := by
  have hmask : (be32 b0 b1 b2 b3 &&& 0x7FFFFFFF).toNat = (be32 b0 b1 b2 b3).toNat % 2 ^ 31 :=
    (BitVec.toNat_and _ _).trans (Nat.and_two_pow_sub_one_eq_mod _ 31)
  rw [BitVec.toNat_setWidth, hmask, Nat.mod_mod, toNat_be32]
  omega

/-- The truncated value as a number (R140). -/
theorem toNat_dynTrunc (hs : Buf 20) :
    let offset := (byteAt hs 19).toNat % 16
    (dynTrunc hs).toNat =
      (byteAt hs (offset + 0)).toNat % 128 * 2 ^ 24 + (byteAt hs (offset + 1)).toNat * 2 ^ 16 +
        (byteAt hs (offset + 2)).toNat * 2 ^ 8 + (byteAt hs (offset + 3)).toNat := by
  rw [dynTrunc, toNat_be32_low31, toNat_and_low_nibble]
  rfl

theorem exec_trunc_eq (s : State) :
    exec .trunc s = .next { s with tv := dynTrunc s.digest, status := .ok } := by
  rw [exec_trunc, conclude_ok]
  rfl

/-! ### Decimal digits -/

/-- The last `n` digits of a number in base `b` spell it modulo `b ^ n`. -/
theorem sum_div_pow_mod_mul_pow (b v n : Nat) :
    ∑ i ∈ Finset.range n, v / b ^ i % b * b ^ i = v % b ^ n := by
  induction n with
  | zero => rw [Finset.sum_range_zero, Nat.pow_zero, Nat.mod_one]
  | succ n ih => rw [Finset.sum_range_succ, ih, Nat.mod_pow_succ, Nat.mul_comm (b ^ n)]

/-- Character `i` of a code is the digit of weight `10 ^ (n - 1 - i)` (R142). -/
theorem toNat_getD_decFormat (p : BitVec 31) {n i : Nat} (h : i < n) :
    ((decFormat p n).getD i 0).toNat = 0x30 + p.toNat % 10 ^ n / 10 ^ (n - 1 - i) % 10 := by
  rw [List.getD_eq_getElem _ _ (by rwa [length_decFormat])]
  simp only [decFormat, List.getElem_map, List.getElem_range, BitVec.toNat_ofNat]
  omega

/-- The characters of a code spell the value modulo `10 ^ n` (R142). -/
theorem sum_decFormat (p : BitVec 31) (n : Nat) :
    ∑ i ∈ Finset.range n, (((decFormat p n).getD i 0).toNat - 0x30) * 10 ^ (n - 1 - i) =
      p.toNat % 10 ^ n := by
  have hdigit : ∀ i ∈ Finset.range n,
      (((decFormat p n).getD i 0).toNat - 0x30) * 10 ^ (n - 1 - i) =
        p.toNat % 10 ^ n / 10 ^ (n - 1 - i) % 10 * 10 ^ (n - 1 - i) := fun i hi => by
    rw [toNat_getD_decFormat p (Finset.mem_range.1 hi), Nat.add_sub_cancel_left]
  rw [Finset.sum_congr rfl hdigit,
    Finset.sum_range_reflect (fun i => p.toNat % 10 ^ n / 10 ^ i % 10 * 10 ^ i),
    sum_div_pow_mod_mul_pow, Nat.mod_mod]

/-! ### The formatter -/

theorem exec_format_of_invalid {s : State} (h : s.digits.toNat < 1 ∨ 9 < s.digits.toNat) :
    exec .format s = .next { s with status := .invalidDigits } := by
  rw [exec_format, format_eq, if_pos h, conclude_error]
  rfl

/-- With 1 to 9 digits `FORMAT` leaves the characters of the code and their number, and zeros after
them (R143). -/
theorem exec_format_of_valid {s : State} (h1 : 1 ≤ s.digits.toNat) (h9 : s.digits.toNat ≤ 9) :
    ∃ t, exec .format s = .next t ∧
      t = { s with code := t.code, codeLen := t.codeLen, status := .ok } ∧
      t.codeLen.toNat = s.digits.toNat ∧
      ∀ i, byteAt t.code i = (decFormat s.tv s.digits.toNat).getD i 0 := by
  have hlen := length_decFormat s.tv s.digits.toNat
  refine ⟨(s.loadCode (decFormat s.tv s.digits.toNat)).succeed, ?_, rfl,
    (toNat_ofNat_length (by omega)).trans hlen,
    byteAt_fillBuf_of_length_le (hlen.le.trans (h9.trans (by decide)))⟩
  rw [exec_format, format_eq, if_neg (by omega), conclude_ok]

end Sys2Proof.Machine
end

section
/-! The statements about truncation and formatting, each from the lemmas above. -/

namespace Sys2Proof.Machine

/-- Settles O41: the word, and the command by the truncated value as a number. -/
theorem truncSelectsThirtyOneBits : Obligations.TruncSelectsThirtyOneBits :=
  ⟨by decide, fun s => ⟨_, exec_trunc_eq s, rfl, toNat_dynTrunc s.digest⟩⟩

/-- Settles O42: the word, and the command by its check and by the characters of the code. -/
theorem formatSpellsTheValueModTenToTheN : Obligations.FormatSpellsTheValueModTenToTheN := by
  refine ⟨by decide, fun s => ?_⟩
  intro n
  refine ⟨exec_format_of_invalid, fun h1 h9 => ?_⟩
  obtain ⟨t, ht, hframe, hlen, hcode⟩ := exec_format_of_valid h1 h9
  refine ⟨t, ht, hframe, hlen, ?_⟩
  simp only [hcode]
  exact ⟨fun _ => decFormat_digit s.tv, sum_decFormat s.tv n, fun _ hi _ =>
    List.getD_eq_default _ _ ((length_decFormat s.tv n).le.trans hi)⟩

end Sys2Proof.Machine
end

section
/-! `TOTPCTR`, `HOTP`, `TOTP`, `NOP` and `WIPE` (R150 to R155), each by what it ends in: the code of its
first failing check, or the state with its results. -/

namespace Sys2Proof.Machine

/-! ### The time counter -/

/-- The counter of a time is the floor quotient modulo `2 ^ 64` (R150). -/
theorem toNat_totpCounter (t t0 x : Int) :
    ((totpCounter t t0 x).toNat : Int) = (t - t0).fdiv x % 2 ^ 64 := by
  rw [totpCounter, BitVec.toNat_ofInt, Int.toNat_of_nonneg (Int.emod_nonneg _ (by decide))]
  rfl

/-- The floor quotient by a positive step is the greatest integer whose product with the step is not
above the dividend (R150). -/
theorem fdiv_bounds (d : Int) {x : Int} (hx : 0 < x) :
    d.fdiv x * x ≤ d ∧ d < (d.fdiv x + 1) * x := by
  rw [Int.fdiv_eq_ediv_of_nonneg d hx.le]
  exact ⟨Int.ediv_mul_le d hx.ne', Int.lt_ediv_add_one_mul_self d hx⟩

theorem exec_totpctr_of_nonpos {s : State} (hx : s.timeStep.toInt ≤ 0) :
    exec .totpctr s = .next { s with status := .invalidTimeStep } := by
  rw [exec_totpctr, totpctr_eq, if_pos hx, conclude_error]
  rfl

theorem exec_totpctr_of_pos {s : State} (hx : 0 < s.timeStep.toInt) :
    exec .totpctr s = .next { s with ctr := s.timeCounter, status := .ok } := by
  rw [exec_totpctr, totpctr_eq, if_neg hx.not_ge, conclude_ok]
  rfl

/-! ### The engine of `HOTP` -/

/-- The checks of `HOTP` pass: the key length is 1 to 160, the digit count 1 to 9 (R152). -/
def State.hotpReady (s : State) : Prop :=
  (1 ≤ s.keyLen.toNat ∧ s.keyLen.toNat ≤ 160) ∧ 1 ≤ s.digits.toNat ∧ s.digits.toNat ≤ 9

/-- The registers of the code of a counter, from the key and the digit count of the state (R152). -/
def State.withPasscode (s : State) (c : DWord) : State :=
  s.loadPasscode c ((List.range s.keyLen.toNat).map (byteAt s.key)) s.digits.toNat

section
variable {s : State} (c : DWord)

theorem hotpCompute_of_long (h : 160 < s.keyLen.toNat) :
    hotpCompute c s = .error .capacityExceeded := by
  rw [hotpCompute_eq, if_pos h]

theorem hotpCompute_of_empty (h : s.keyLen.toNat = 0) : hotpCompute c s = .error .invalidKey := by
  rw [hotpCompute_eq, if_neg (by omega), if_pos h]

theorem hotpCompute_of_digits (h1 : 1 ≤ s.keyLen.toNat) (h160 : s.keyLen.toNat ≤ 160)
    (hg : s.digits.toNat < 1 ∨ 9 < s.digits.toNat) :
    hotpCompute c s = .error .invalidDigits := by
  rw [hotpCompute_eq, if_neg (by omega), if_neg (by omega), if_pos hg]

theorem hotpCompute_of_ready (h : s.hotpReady) : hotpCompute c s = .ok (s.withPasscode c) := by
  obtain ⟨⟨h1, h160⟩, hg1, hg9⟩ := h
  rw [hotpCompute_eq, if_neg (by omega), if_neg (by omega), if_neg (by omega), State.keyBytes,
    firstBytes_eq_map s.key h160]
  rfl

/-- Where a check does not pass the engine fails with a code other than 0. -/
theorem hotpCompute_of_not_ready (h : ¬ s.hotpReady) :
    ∃ k, hotpCompute c s = .error k ∧ k ≠ .ok := by
  unfold State.hotpReady at h
  obtain hlong | hempty | ⟨⟨h1, h160⟩, hg⟩ : 160 < s.keyLen.toNat ∨ s.keyLen.toNat = 0 ∨
      (1 ≤ s.keyLen.toNat ∧ s.keyLen.toNat ≤ 160) ∧ (s.digits.toNat < 1 ∨ 9 < s.digits.toNat) := by
    omega
  · exact ⟨_, hotpCompute_of_long c hlong, by decide⟩
  · exact ⟨_, hotpCompute_of_empty c hempty, by decide⟩
  · exact ⟨_, hotpCompute_of_digits c h1 h160 hg, by decide⟩

theorem withPasscode_codeLen : (s.withPasscode c).codeLen = s.digits := by
  simp [State.withPasscode, State.loadPasscode]

/-- The characters of the code, and zeros after them (R143, R152). -/
theorem byteAt_withPasscode_code (h9 : s.digits.toNat ≤ 9) (i : Nat) :
    byteAt (s.withPasscode c).code i =
      (decFormat (s.withPasscode c).tv s.digits.toNat).getD i 0 :=
  byteAt_fillBuf_of_length_le ((length_decFormat _ _).le.trans (h9.trans (by decide))) i

/-- The results of the units for a counter, each from the register before it (R152). -/
theorem withPasscode_results (h9 : s.digits.toNat ≤ 9) :
    let t := s.withPasscode c
    t.cb = ctrEncode c ∧
      t.digest = hmacSha1 ((List.range s.keyLen.toNat).map (byteAt s.key)) t.cb.toList ∧
      t.tv = dynTrunc t.digest ∧
      t.codeLen = s.digits ∧
      (∀ i < s.digits.toNat, byteAt t.code i = (decFormat t.tv s.digits.toNat).getD i 0) ∧
      ∀ i, s.digits.toNat ≤ i → i < 12 → byteAt t.code i = 0 :=
  ⟨rfl, rfl, rfl, withPasscode_codeLen c, fun i _ => byteAt_withPasscode_code c h9 i, fun i hi _ =>
    (byteAt_withPasscode_code c h9 i).trans
      (List.getD_eq_default _ _ ((length_decFormat _ _).le.trans hi))⟩

end

/-! ### `HOTP` and `TOTP` -/

theorem exec_hotp_of_error {s : State} {k : Status} (h : hotpCompute s.ctr s = .error k) :
    exec .hotp s = .next { s with status := k } := by
  rw [exec_hotp, h, conclude_error]
  rfl

theorem exec_hotp_of_ready {s : State} (h : s.hotpReady) :
    exec .hotp s = .next { s.withPasscode s.ctr with status := .ok } := by
  rw [exec_hotp, hotpCompute_of_ready s.ctr h, conclude_ok]
  rfl

theorem exec_totp_of_nonpos {s : State} (hx : s.timeStep.toInt ≤ 0) :
    exec .totp s = .next { s with status := .invalidTimeStep } := by
  rw [exec_totp, totp_eq, if_pos hx, conclude_error]
  rfl

theorem exec_totp_of_error {s : State} {k : Status} (hx : 0 < s.timeStep.toInt)
    (h : hotpCompute s.timeCounter s = .error k) :
    exec .totp s = .next { s with status := k } := by
  rw [exec_totp, totp_eq, if_neg hx.not_ge, h, error_bind, conclude_error]
  rfl

theorem exec_totp_of_ready {s : State} (hx : 0 < s.timeStep.toInt) (h : s.hotpReady) :
    exec .totp s =
      .next { s.withPasscode s.timeCounter with ctr := s.timeCounter, status := .ok } := by
  rw [exec_totp, totp_eq, if_neg hx.not_ge, hotpCompute_of_ready _ h, ok_bind, conclude_ok]
  rfl

/-! ### The units one after the other -/

/-- With 1 to 9 digits `FORMAT` loads the code and nothing else (R143). -/
theorem exec_format_eq_loadCode {s : State} (h1 : 1 ≤ s.digits.toNat) (h9 : s.digits.toNat ≤ 9) :
    exec .format s =
      .next { s.loadCode (decFormat s.tv s.digits.toNat) with status := .ok } := by
  rw [exec_format, format_eq, if_neg (by omega), conclude_ok]
  rfl

/-- With a key and the counter's bytes in `CB`, `HMAC` writes their digest (R120). -/
theorem exec_hmac_of_encoded {s : State} {c : DWord} (h1 : 1 ≤ s.keyLen.toNat)
    (h160 : s.keyLen.toNat ≤ 160) (hcb : s.cb = ctrEncode c) :
    exec .hmac s = .next { s with
      digest := hmacSha1 ((List.range s.keyLen.toNat).map (byteAt s.key)) (ctrEncode c).toList
      status := .ok } := by
  rw [exec_hmac_of_key h1 h160, ← toList_eq_map, hcb]

/-! ### `NOP` and `WIPE` -/

theorem exec_nop_eq (s : State) : exec .nop s = .next { s with status := .ok } := by
  rw [exec_nop, conclude_ok]
  rfl

/-- A command that does not end in success changes the status only (R172). -/
theorem eq_setStatus_of_failed {i : Instr} {s t : State} (h : exec i s = .next t)
    (hk : t.status ≠ .ok) : t = { s with status := t.status } := by
  obtain ⟨k, -, rfl⟩ | ⟨e, -, rfl⟩ := exec_next_cases h
  · rfl
  · exact absurd rfl hk

theorem exec_wipe_eq (s : State) : exec .wipe s = .next { s.wiped with status := .ok } := by
  rw [exec_wipe, conclude_ok]
  rfl

/-- Every byte of a cleared buffer is zero (R155). -/
theorem byteAt_fillBuf_nil {n : Nat} : ∀ i < n, byteAt (fillBuf n []) i = 0 := fun i _ =>
  (byteAt_fillBuf_of_length_le (Nat.zero_le n) i).trans List.getD_nil

end Sys2Proof.Machine
end

section
/-! The statements about the composite commands and about housekeeping, each from the lemmas above. -/

namespace Sys2Proof.Machine

/-- Settles O45: the quotient is the floor quotient of the exact difference. -/
theorem totpctrFloorsTheTime : Obligations.TotpctrFloorsTheTime :=
  ⟨by decide, fun _ => ⟨exec_totpctr_of_nonpos, fun hx =>
    have ⟨hle, hlt⟩ := fdiv_bounds _ hx
    ⟨_, _, exec_totpctr_of_pos hx, rfl, hle, hlt, toNat_totpCounter _ _ _⟩⟩⟩

/-- Settles O46: the word, the three checks, and the results for `CTR`. -/
theorem hotpComputesTheCode : Obligations.HotpComputesTheCode := by
  refine ⟨by decide, fun s => ?_⟩
  intro n g
  refine ⟨fun h => ?_, fun h => ?_, fun h1 h160 hg => ?_, fun h1 h160 hg1 hg9 => ?_⟩
  · exact exec_hotp_of_error (hotpCompute_of_long _ h)
  · exact exec_hotp_of_error (hotpCompute_of_empty _ h)
  · exact exec_hotp_of_error (hotpCompute_of_digits _ h1 h160 hg)
  · exact ⟨_, exec_hotp_of_ready ⟨⟨h1, h160⟩, hg1, hg9⟩, rfl, withPasscode_results s.ctr hg9⟩

/-- Settles O47: the four units leave the registers of the code of `CTR` one after the other. -/
theorem hotpEqualsTheUnitSequence : Obligations.HotpEqualsTheUnitSequence := by
  intro s checksPass
  refine ⟨fun h => ?_, fun h => ?_⟩
  · have ⟨⟨h1, h160⟩, hg1, hg9⟩ := h
    exact ⟨_, _, _, _, exec_ctrenc_eq s, exec_hmac_of_encoded h1 h160 rfl, exec_trunc_eq _,
      exec_format_eq_loadCode hg1 hg9, exec_hotp_of_ready h⟩
  · obtain ⟨k, hfail, hk⟩ := hotpCompute_of_not_ready s.ctr h
    exact ⟨_, exec_hotp_of_error hfail, rfl, hk, exec_ctrenc_eq s⟩

/-- Settles O48: the word, the check of the step, then `HOTP`'s checks and results for the time's
counter. -/
theorem totpComputesTheCode : Obligations.TotpComputesTheCode := by
  refine ⟨by decide, fun s => ?_⟩
  intro x n g
  refine ⟨exec_totp_of_nonpos, fun hx h => ?_, fun hx h => ?_, fun hx h1 h160 hg => ?_,
    fun hx h1 h160 hg1 hg9 => ?_⟩
  · exact exec_totp_of_error hx (hotpCompute_of_long _ h)
  · exact exec_totp_of_error hx (hotpCompute_of_empty _ h)
  · exact exec_totp_of_error hx (hotpCompute_of_digits _ h1 h160 hg)
  · exact ⟨_, exec_totp_of_ready hx ⟨⟨h1, h160⟩, hg1, hg9⟩, rfl, rfl,
      withPasscode_results s.timeCounter hg9⟩

/-- Settles O49: `TOTPCTR` leaves the key and the digit count, so `HOTP`'s checks pass after it too. -/
theorem totpEqualsTotpctrThenHotp : Obligations.TotpEqualsTotpctrThenHotp := by
  intro s hx h1 h160 hg1 hg9
  have hready : s.hotpReady := ⟨⟨h1, h160⟩, hg1, hg9⟩
  exact ⟨_, _, exec_totpctr_of_pos hx, exec_hotp_of_ready hready, exec_totp_of_ready hx hready⟩

/-- Settles O50: a failing command left everything but the status. -/
theorem nopOnlyClearsTheStatus : Obligations.NopOnlyClearsTheStatus := by
  refine ⟨by decide, fun s => ⟨exec_nop_eq s, fun i t h hk => ?_⟩⟩
  rw [exec_nop_eq, eq_setStatus_of_failed h hk]

/-- Settles O51: every buffer is cleared, and a key length of 0 fails the key check of the three
commands. -/
theorem wipeErasesTheSecret : Obligations.WipeErasesTheSecret := by
  refine ⟨by decide, fun s => ⟨_, exec_wipe_eq s, rfl, byteAt_fillBuf_nil, byteAt_fillBuf_nil,
    byteAt_fillBuf_nil, byteAt_fillBuf_nil, ?_, ?_, fun hx => ?_⟩⟩
  · exact exec_hmac_of_empty rfl
  · exact exec_hotp_of_error (hotpCompute_of_empty _ rfl)
  · exact exec_totp_of_error hx (hotpCompute_of_empty _ rfl)

end Sys2Proof.Machine
end

section
/-! The code a command reports (R170, R173): that of its first failing check, or 0. The table of R185
lists these codes, and one state for each code shows that none is listed in vain. -/

namespace Sys2Proof.Machine

/-- The code a command leaves in `STATUS.ERR`. -/
def reportedCode (i : Instr) (s : State) : Status :=
  match effectOf i s with
  | .error k => k
  | .ok _ => .ok

theorem reportedCode_of_error {i : Instr} {s : State} {k : Status} (h : effectOf i s = .error k) :
    reportedCode i s = k := by
  rw [reportedCode, h]

theorem reportedCode_of_ok {i : Instr} {s : State} {e : Effect} (h : effectOf i s = .ok e) :
    reportedCode i s = .ok := by
  rw [reportedCode, h]

/-- Every command completes, and the status it leaves is the code it reports. -/
theorem exec_reportedCode (i : Instr) (s : State) :
    ∃ t, exec i s = .next t ∧ t.status = reportedCode i s := by
  cases h : effectOf i s with
  | error k => exact ⟨_, exec_of_effect_error h, (reportedCode_of_error h).symm⟩
  | ok e => exact ⟨_, exec_of_effect_ok h, (reportedCode_of_ok h).symm⟩

/-! ### No code but those of the table -/

/-- The table lists the code of every check of a command. -/
theorem mem_possibleCodes_of_effect_error {i : Instr} {s : State} {k : Status}
    (h : effectOf i s = .error k) : k ∈ possibleCodes i := by
  cases i <;>
    simp only [effectOf, checkTextCapacity, checkDecoded, checkKeyCapacity, checkKeyPresent,
      checkDigits, checkTimeStep, bind_eq_error, failIf_eq_error_iff, pure_eq_ok, reduceCtorEq,
      and_false, exists_false, or_false] at h
  case decb32 =>
    obtain ⟨-, rfl⟩ | ⟨-, -, hval | ⟨-, -, -, rfl⟩⟩ := h
    · decide
    · rw [(valuesOf_error hval).1]; decide
    · decide
  case dechex =>
    obtain ⟨-, rfl⟩ | ⟨-, -, ⟨-, rfl⟩ | ⟨-, -, hval | ⟨-, -, -, rfl⟩⟩⟩ := h
    · decide
    · decide
    · rw [(valuesOf_error hval).1]; decide
    · decide
  case ctrdec n =>
    obtain ⟨hn, rfl⟩ := h
    simp [possibleCodes, of_decide_eq_true hn]
  case hmac => obtain ⟨-, rfl⟩ | ⟨-, -, -, rfl⟩ := h <;> decide
  case format => obtain ⟨-, rfl⟩ := h; decide
  case totpctr => obtain ⟨-, rfl⟩ := h; decide
  case hotp => obtain ⟨-, rfl⟩ | ⟨-, -, ⟨-, rfl⟩ | ⟨-, -, -, rfl⟩⟩ := h <;> decide
  case totp =>
    obtain ⟨-, rfl⟩ | ⟨-, -, ⟨-, rfl⟩ | ⟨-, -, ⟨-, rfl⟩ | ⟨-, -, -, rfl⟩⟩⟩ := h <;> decide

/-- The table lists 0 for every command that has an effect; `CTRDEC n` has one for `n = 8` only. -/
theorem ok_mem_possibleCodes_of_effect {i : Instr} {s : State} {e : Effect}
    (h : effectOf i s = .ok e) : .ok ∈ possibleCodes i := by
  cases hasEffect_of_ok h <;> decide

theorem reportedCode_mem_possibleCodes (i : Instr) (s : State) :
    reportedCode i s ∈ possibleCodes i := by
  cases h : effectOf i s with
  | error k => rw [reportedCode_of_error h]; exact mem_possibleCodes_of_effect_error h
  | ok e => rw [reportedCode_of_ok h]; exact ok_mem_possibleCodes_of_effect h

/-! ### Every code of the table -/

/-- A state in which every command that can report the code reports it. `AA` is a text and a key
length of 1 is a key for every command; a text of two zero bytes has no values. `CTRDEC` fails by its
operand, so that any state does for code 5, and no command reports code 6. -/
def State.showing : Status → State
  | .ok =>
    { State.reset with text := fillBuf Config.textMax [0x41, 0x41], textLen := 2, keyLen := 1 }
  | .invalidFormat => { State.reset with textLen := 2 }
  | .invalidKey => State.reset
  | .invalidDigits => { State.reset with keyLen := 1, digits := 0 }
  | .invalidTimeStep => { State.reset with timeStep := 0 }
  | .invalidLength => State.reset
  | .illegalCommand => State.reset
  | .capacityExceeded => { State.reset with textLen := 257, keyLen := 161 }

/-- Each code the table lists for a command is reported in the state that shows it. Apart from the
operand of `CTRDEC` this is one evaluation for each entry of the table. -/
theorem reportedCode_showing {i : Instr} :
    ∀ k ∈ possibleCodes i, reportedCode i (State.showing k) = k := by
  cases i
  case ctrdec n =>
    by_cases hn : n = 8
    · subst hn; decide
    · simp [possibleCodes, reportedCode, effectOf, hn]
  all_goals decide

end Sys2Proof.Machine
end

section
/-! The statements about how commands end, each from the lemmas above. -/

namespace Sys2Proof.Machine

/-- Settles O18: a command that does not end in success raised its code and did nothing else. -/
theorem failingCommandChangesOnlyStatus : Obligations.FailingCommandChangesOnlyStatus :=
  fun _ _ _ => eq_setStatus_of_failed

/-- Settles O19: the table lists the code a command reports, and each code it lists has a state that
shows it; a word that is no command raises its own code. -/
theorem commandsReportExactlyTheirCodes : Obligations.CommandsReportExactlyTheirCodes := by
  refine ⟨fun i s => ?_, fun i k hk => ?_, fun w s ⟨e, he⟩ => ?_⟩
  · obtain ⟨t, ht, hstatus⟩ := exec_reportedCode i s
    exact ⟨t, ht, hstatus ▸ reportedCode_mem_possibleCodes i s⟩
  · obtain ⟨t, ht, hstatus⟩ := exec_reportedCode i (State.showing k)
    exact ⟨_, t, ht, hstatus.trans (reportedCode_showing k hk)⟩
  · exact ⟨_, runCommandWord_of_error he s, rfl⟩

end Sys2Proof.Machine
end

section
/-! The idle core (R191, R203): a step without a pending event, and runs from a state that a step
leaves as it is. -/

namespace Sys2Proof.Machine

/-- A step with no event pending. -/
theorem step_idle {s : State} (h : s.host = []) : step s = .next s := by
  simp only [step, h]

/-- A state that a step leaves as it is, is left so by a run of any length. -/
theorem run_of_step_eq_self {s : State} (h : step s = .next s) (k : Nat) :
    Host.Core.run Sys2Proof.core k s = .next s := by
  induction k with
  | zero => exact run_zero s
  | succ k ih => rw [run_succ k h, ih]

/-- Settles O8: an idle step answers the state itself, so every run does. -/
theorem idleCoreStaysAsItIs : Obligations.IdleCoreStaysAsItIs :=
  fun _ hidle => ⟨step_idle hidle, run_of_step_eq_self (step_idle hidle)⟩

end Sys2Proof.Machine
end
